-- ==== Sys2Proof/Word.lean ====
section
/-! DEFINITION. The widths of 00_scope.md R4: memory words of 16 bits, values (registers, stack cells, resolved
operands, addresses, character codes) of 15 bits, and the bytes of an image file. -/

namespace Sys2Proof

/-- A memory word, 16 bits, 0..65535 (R4 `WW`); also an opcode word or an operand word (R50). -/
abbrev Word := BitVec 16

/-- A 15-bit value, 0..32767 (R4 `VW`): a register, a stack cell, a resolved operand, a word address, a character code. -/
abbrev Value := BitVec 15

/-- One byte of an image file (R35). -/
abbrev Byte := BitVec 8

end Sys2Proof
end

