-- ==== Sys2Proof/Syntax.lean ====
section
/-! DEFINITION. Operands and instructions as data. One constructor of `Instr` per row of spec/opcode_table.json. -/

namespace Sys2Proof

/-- An operand word, sorted into the three classes of 30_encoding.md R53. Every 16-bit word is exactly one operand, the
illegal ones included: an instruction that holds an illegal operand is still that instruction, and running it raises a
fault (R54). -/
inductive Operand where
  /-- A literal, word 0..32767. -/
  | lit (v : Value)
  /-- A register reference, word 32768..32775; `r` is `RegIdx(w)`. -/
  | reg (r : Fin 8)
  /-- An illegal operand, word 32776..65535; `k` is the word less 32776. -/
  | illegal (k : Fin 32760)
  deriving DecidableEq, Repr

/-- The 22 instructions (30_encoding.md R52, R56). Operand names are the spec's positions `a`, `b`, `c`; `a` is the
destination of the 12 instructions that have one. -/
inductive Instr where
  /-- `halt` (R120). -/
  | halt
  /-- `set a b` (R90). -/
  | set (a b : Operand)
  /-- `push a` (R91). -/
  | push (a : Operand)
  /-- `pop a` (R92). -/
  | pop (a : Operand)
  /-- `eq a b c` (R93). -/
  | eq (a b c : Operand)
  /-- `gt a b c` (R94). -/
  | gt (a b c : Operand)
  /-- `jmp a` (R95). -/
  | jmp (a : Operand)
  /-- `jt a b` (R96). -/
  | jt (a b : Operand)
  /-- `jf a b` (R97). -/
  | jf (a b : Operand)
  /-- `add a b c` (R101). -/
  | add (a b c : Operand)
  /-- `mult a b c` (R102). -/
  | mult (a b c : Operand)
  /-- `mod a b c` (R103). -/
  | mod (a b c : Operand)
  /-- `and a b c` (R104). -/
  | and (a b c : Operand)
  /-- `or a b c` (R105). -/
  | or (a b c : Operand)
  /-- `not a b` (R106). -/
  | not (a b : Operand)
  /-- `rmem a b` (R110). -/
  | rmem (a b : Operand)
  /-- `wmem a b` (R111). -/
  | wmem (a b : Operand)
  /-- `call a` (R98). -/
  | call (a : Operand)
  /-- `ret` (R99). -/
  | ret
  /-- `out a` (R115). -/
  | out (a : Operand)
  /-- `in a` (R116); the bare word is a keyword of Lean. -/
  | in_ (a : Operand)
  /-- `noop` (R121). -/
  | noop
  deriving DecidableEq, Repr

end Sys2Proof
end

