-- ==== Sys2Proof/Decode.lean ====
section
/-! DEFINITION. Operand words, the decoder, the encoder, and the little-endian byte form of word sequences
(30_encoding.md; 20_memory.md R35, R36). Decoding is total: it answers an instruction with the words that follow it, or
says by name why it does not. -/

namespace Sys2Proof

/-- The class of an operand word (30_encoding.md R53). -/
def Operand.ofWord (w : Word) : Operand :=
  if _hl : w.toNat < 32768 then .lit (BitVec.ofNat 15 w.toNat)
  else if hr : w.toNat < 32776 then .reg ⟨w.toNat - 32768, by omega⟩
  else .illegal ⟨w.toNat - 32776, by have := w.isLt; omega⟩

/-- The word that denotes an operand (R53): the literal itself, 32768 plus the register index, or the illegal word. -/
def Operand.toWord : Operand → Word
  | .lit v => BitVec.ofNat 16 v.toNat
  | .reg r => BitVec.ofNat 16 (32768 + r.val)
  | .illegal k => BitVec.ofNat 16 (32776 + k.val)

/-- What decoding a word sequence gives. -/
inductive DecodeResult where
  /-- An instruction, and the words that follow it. -/
  | ok (i : Instr) (rest : List Word)
  /-- The opcode word is above 21 (R57). -/
  | unknownOpcode (w0 : Word)
  /-- The sequence ends inside the instruction: it has `k` words, and the word at position `k` is missing (R59, R72). -/
  | truncated (k : Nat)
  deriving DecidableEq, Repr

/-- Format `A` (R50): one operand word. `ws` are the words after the opcode word. -/
def decodeA (f : Operand → Instr) : List Word → DecodeResult
  | [] => .truncated 1
  | w1 :: rest => .ok (f (.ofWord w1)) rest

/-- Format `AB` (R50): two operand words. -/
def decodeAB (f : Operand → Operand → Instr) : List Word → DecodeResult
  | [] => .truncated 1
  | [_] => .truncated 2
  | w1 :: w2 :: rest => .ok (f (.ofWord w1) (.ofWord w2)) rest

/-- Format `ABC` (R50): three operand words. -/
def decodeABC (f : Operand → Operand → Operand → Instr) : List Word → DecodeResult
  | [] => .truncated 1
  | [_] => .truncated 2
  | [_, _] => .truncated 3
  | w1 :: w2 :: w3 :: rest => .ok (f (.ofWord w1) (.ofWord w2) (.ofWord w3)) rest

/-- Decode the instruction that begins a word sequence (R62), by the opcode map of R56: the whole opcode word selects the
instruction (R51), and the operand count follows from it alone (R52, R59). The legality of the operands is checked when
the instruction runs (R73), in `Machine/Operands.lean`. -/
def decodeWords : List Word → DecodeResult
  | [] => .truncated 0
  | w0 :: ws =>
    match w0.toNat with
    | 0 => .ok .halt ws
    | 1 => decodeAB .set ws
    | 2 => decodeA .push ws
    | 3 => decodeA .pop ws
    | 4 => decodeABC .eq ws
    | 5 => decodeABC .gt ws
    | 6 => decodeA .jmp ws
    | 7 => decodeAB .jt ws
    | 8 => decodeAB .jf ws
    | 9 => decodeABC .add ws
    | 10 => decodeABC .mult ws
    | 11 => decodeABC .mod ws
    | 12 => decodeABC .and ws
    | 13 => decodeABC .or ws
    | 14 => decodeAB .not ws
    | 15 => decodeAB .rmem ws
    | 16 => decodeAB .wmem ws
    | 17 => decodeA .call ws
    | 18 => .ok .ret ws
    | 19 => decodeA .out ws
    | 20 => decodeA .in_ ws
    | 21 => .ok .noop ws
    | _ => .unknownOpcode w0

/-- The words of an instruction (R56 for the opcode word, R53 for the operand words). -/
def encode : Instr → List Word
  | .halt => [0]
  | .set a b => [1, a.toWord, b.toWord]
  | .push a => [2, a.toWord]
  | .pop a => [3, a.toWord]
  | .eq a b c => [4, a.toWord, b.toWord, c.toWord]
  | .gt a b c => [5, a.toWord, b.toWord, c.toWord]
  | .jmp a => [6, a.toWord]
  | .jt a b => [7, a.toWord, b.toWord]
  | .jf a b => [8, a.toWord, b.toWord]
  | .add a b c => [9, a.toWord, b.toWord, c.toWord]
  | .mult a b c => [10, a.toWord, b.toWord, c.toWord]
  | .mod a b c => [11, a.toWord, b.toWord, c.toWord]
  | .and a b c => [12, a.toWord, b.toWord, c.toWord]
  | .or a b c => [13, a.toWord, b.toWord, c.toWord]
  | .not a b => [14, a.toWord, b.toWord]
  | .rmem a b => [15, a.toWord, b.toWord]
  | .wmem a b => [16, a.toWord, b.toWord]
  | .call a => [17, a.toWord]
  | .ret => [18]
  | .out a => [19, a.toWord]
  | .in_ a => [20, a.toWord]
  | .noop => [21]

/-- The words of a byte sequence, little-endian: word `i` is `f[2i] + 256 * f[2i+1]`, and an odd last byte is dropped
(20_memory.md R35, R36). -/
def wordsOfBytes : List Byte → List Word
  | [] => []
  | [_] => []
  | lo :: hi :: rest => (hi ++ lo) :: wordsOfBytes rest

/-- The bytes of a word sequence, the low byte of each word first (R35; the memory dump has the "identical encoding"). -/
def bytesOfWords : List Word → List Byte
  | [] => []
  | w :: ws => w.extractLsb' 0 8 :: w.extractLsb' 8 8 :: bytesOfWords ws

/-- Decode the instruction that begins a byte sequence, as an image file lays it out. -/
def decode (bs : List Byte) : DecodeResult :=
  decodeWords (wordsOfBytes bs)

/-- The bytes of an instruction, as an image file holds them. -/
def encodeBytes (i : Instr) : List Byte :=
  bytesOfWords (encode i)

/-- The four words of a number `w` of `nbits` bits, bit 0 the least significant bit of the first word, every bit at and
above `nbits` zero. -/
def tableWords (nbits w : Nat) : List Word :=
  let v := w % 2 ^ nbits
  [BitVec.ofNat 16 v, BitVec.ofNat 16 (v / 2 ^ 16), BitVec.ofNat 16 (v / 2 ^ 32), BitVec.ofNat 16 (v / 2 ^ 48)]

/-- The instruction the decoder reads from a word of the opcode table. -/
def decodeTableWord (nbits w : Nat) : Option Instr :=
  match decode (bytesOfWords (tableWords nbits w)) with
  | .ok i _ => some i
  | .unknownOpcode _ => none
  | .truncated _ => none

end Sys2Proof
end

