-- ==== Sys2Proof/Config.lean ====
section
/-! DEFINITION. The parameters of 00_scope.md R4 that are not widths, and what the spec leaves as a parameter of the
environment (93_implementation_defined.md U17). -/

namespace Sys2Proof.Config

/-- Memory capacity in words, and the address space ceiling: 32768 (R4 `MEMCAP`, R16). -/
def memCap : Nat := 32768

/-- The newline character code, 10 (R4 `NL`). From general knowledge by the spec's own word (D21, G2; log 12). Unsafe. -/
def newline : Value := 10

/-- The words of the built-in self-test image of R164. UNVERIFIED: the source describes the program and not its words, and
the spec reconstructs them (G5, 95_test_vectors.md P1; log 29). Unsafe; only tests use it. -/
def selfTestImage : List Word := [9, 32768, 32769, 4, 19, 32768, 19, 10, 0]

/-- How the debug command processor reads the arguments of a `!setreg` that are not of the form R149 documents (two
tokens of hexadecimal digits): the register and the value it then writes, or none when it reports them as malformed.
The spec leaves this to the host as a parameter (U17, N12). Nothing is known of its values (log 14). Safe. -/
opaque oddSetreg : List (List Value) → Option (Fin 8 × Value)

/-- How the debug command processor reads the arguments of a `!poke` that are not of the form R149 documents (an address
token and value tokens, of hexadecimal digits, values of 16 bits): the base address and the words it then writes, or none
(U17, N12; log 14). Safe. -/
opaque oddPoke : List (List Value) → Option (Value × List Word)

/-- Whether the debug command processor performs a `!halt` or a `!kill` that has tokens after the command, or reports it
as malformed and leaves the run alone (R148 and R149 do not say; U17; log 14). Safe. -/
opaque oddHalt : List (List Value) → Bool

end Sys2Proof.Config
end

