-- ==== Sys2Proof/Machine/State.lean ====
section
/-! DEFINITION. The state of the machine as plain data (10_state.md), the reasons a step stops, and the state after
reset (70_reset_and_hazards.md R160, R161). -/

namespace Sys2Proof.Machine

/-- The fatal faults of 60_exceptions.md R132, and none. -/
inductive FaultCode where
  | none
  | unknownOpcode
  | memoryBounds
  | invalidDestination
  | illegalOperand
  | divideByZero
  | valueRange
  deriving DecidableEq, Repr

/-- The run status of 10_state.md R20: a function of the state, never stored. -/
inductive Status where
  | running
  | waitIn
  | halted
  | faulted
  | ranOff
  deriving DecidableEq, Repr

/-- The two states of the I/O channel (46_io.md R118). -/
inductive ChannelState where
  | collecting
  | dispatching
  deriving DecidableEq, Repr

/-- The read operations of the debug port (60_exceptions.md R147). -/
inductive DebugRead where
  | pc
  | registers
  | stack
  /-- One memory word. -/
  | memory (a : Nat)
  /-- The memory image `mem[0..mlen-1]`. -/
  | image
  | mlen
  | halt
  | fault
  | finfo
  deriving DecidableEq, Repr

/-- What a debug read returns (R147). -/
inductive DebugReply where
  | word (w : Word)
  | registers (x : Vector Value 8)
  | stack (stk : List Value)
  | image (ws : List Word)
  | extent (n : Nat)
  | flag (b : Bool)
  | fault (c : FaultCode)
  /-- The address is at or beyond the extent: "reported, not fatal". -/
  | outOfRange
  deriving DecidableEq, Repr

/-- One operation of the debug port (R147 to R149). -/
inductive DebugOp where
  | read (q : DebugRead)
  /-- Debug halt (R148). -/
  | halt
  /-- Write register (R149). -/
  | writeReg (r : Fin 8) (v : Value)
  /-- Write memory words from a base address upward (R149). -/
  | writeMem (a : Value) (ws : List Word)
  deriving DecidableEq, Repr

/-- One move of the host (60_exceptions.md R152, 70_reset_and_hazards.md R170). -/
inductive HostMove where
  /-- The I/O channel reads one character from the person or file that feeds it (46_io.md R118). -/
  | key (c : Value)
  /-- One transaction of the debug port. -/
  | debug (op : DebugOp)
  /-- The load of an image, followed by the host's register presets (R160, R152). -/
  | load (img : List Word) (presets : List (Fin 8 × Value))
  deriving DecidableEq, Repr

/-- Memory, as the bytes of its words in the byte order of the image (R35): word `a` is the bytes `2a` (bits 7:0) and
`2a + 1` (bits 15:8). Canonical form: addresses strictly rising, no byte 0 listed; an unlisted byte is 0, the fill of
10_state.md R16 (log 2, log 3). -/
abbrev Memory := List Host.Cell

/-- Everything the spec gives the machine: the core's state (10_state.md section 1), the state of the attached I/O
channel (10_state.md section 7), and the host's moves still to come. -/
structure State where
  /-- General registers `x[0]`..`x[7]` (R10). -/
  regs : Vector Value 8
  /-- Program counter, values 0..32768 (R12). -/
  pc : Word
  /-- The stack, bottom to top (R14). -/
  stk : List Value
  /-- Memory cells (R16). -/
  mem : Memory
  /-- Memory extent, 0..32768 (R17). -/
  mlen : Nat
  /-- Halt flag (R18). -/
  halt : Bool
  /-- Fault code (R19). -/
  fault : FaultCode
  /-- Fault information word (R19). -/
  finfo : Word
  /-- The run's output sequence of character codes, oldest first (R82, R115). -/
  out : List Value
  /-- Output accumulator of the I/O channel (R21). -/
  outAcc : List Value
  /-- The lines the I/O channel has emitted, oldest first (R21, R117). -/
  outLines : List (List Value)
  /-- Input accumulator of the I/O channel (R22). -/
  inAcc : List Value
  /-- Command history: completed input lines, oldest first (R22). -/
  history : List (List Value)
  /-- COLLECTING or DISPATCHING (R118). -/
  chan : ChannelState
  /-- Pending input characters, next first (R23). -/
  inq : List Value
  /-- The host's moves still to come, next first: the free inputs of R81 (the model's own field, log 8). -/
  host : List HostMove
  deriving DecidableEq, Repr

/-- Why a step takes no step. All three are raised by `environmentStep` (Machine/HostPort.lean) alone, on a core that is
stopped and for which the host has no move ready that a stopped core admits; no instruction's meaning raises one. Safe:
the core "takes no further step and no state changes until reset" (R20). -/
inductive Fault where
  /-- Status HALTED: the halt flag is set (R18, R20). Safe. -/
  | halted
  /-- Status FAULTED: a fatal fault is recorded (R19, R131). Safe. -/
  | faulted
  /-- Status RANOFF: the program counter is at or beyond the extent (R20, R71). Safe. -/
  | ranOff
  deriving DecidableEq, Repr

/-- Why the model declines to give a step. -/
inductive Refusal where
  /-- Raised by `exec` alone, for an instruction that has no meaning yet. Safe. -/
  | notModelled (mnemonic : String)
  /-- Raised by the host's load of an image longer than 32768 words: "such an image is refused and the core is not
  started" (R162, U11). Safe. -/
  | imageTooLong
  deriving DecidableEq, Repr

/-- What a step or a meaning answers. -/
abbrev Result := Host.Outcome State Fault Refusal

/-- The machine right after reset, with no program: the load of the empty image (R160, R161, and R162 for `L = 0`). A
program comes in by a `load` move of the host (log 4). -/
def State.reset : State where
  regs := Vector.replicate 8 0
  pc := 0
  stk := []
  mem := []
  mlen := 0
  halt := false
  fault := .none
  finfo := 0
  out := []
  outAcc := []
  outLines := []
  inAcc := []
  history := []
  chan := .collecting
  inq := []
  host := []

end Sys2Proof.Machine
end

