-- ==== Sys2Proof/Machine/Ops.lean ====
section
/-! DEFINITION. The named operations over memory, registers, stack and program counter (20_memory.md, 10_state.md),
taking a fatal fault (60_exceptions.md R131), and reset by load (70_reset_and_hazards.md R160). There is no return from a
fault: only a load leaves a stopped core (R142). -/

namespace Sys2Proof.Machine

/-! ### Memory -/

/-- The byte at a byte address; 0 where none is listed. -/
def Memory.read : Memory → Nat → Byte
  | [], _ => 0
  | (k, b) :: m, a => if a = k then b else Memory.read m a

/-- List a byte that is not 0, in its place. -/
def Memory.insert : Memory → Nat → Byte → Memory
  | [], a, b => [(a, b)]
  | (k, v) :: m, a, b =>
    if a < k then (a, b) :: (k, v) :: m
    else if a = k then (a, b) :: m
    else (k, v) :: Memory.insert m a b

/-- Write a byte, keeping the canonical form: writing 0, what an unlisted byte reads as, removes the entry. -/
def Memory.write (m : Memory) (a : Nat) (b : Byte) : Memory :=
  if b = 0 then m.filter (fun c => c.1 ≠ a) else Memory.insert m a b

/-- The canonical form: addresses strictly rising, no byte 0 listed. -/
abbrev Memory.wf (m : Memory) : Prop :=
  m.Pairwise (fun c d => c.1 < d.1) ∧ ∀ c ∈ m, c.2 ≠ 0

/-- `mem[a]`, a whole word (R16), from its two bytes. -/
def Memory.readWord (m : Memory) (a : Nat) : Word :=
  m.read (2 * a + 1) ++ m.read (2 * a)

/-- `mem[a] <- w`, both bytes. -/
def Memory.writeWord (m : Memory) (a : Nat) (w : Word) : Memory :=
  (m.write (2 * a) (w.extractLsb' 0 8)).write (2 * a + 1) (w.extractLsb' 8 8)

/-- Write words at rising addresses from `a`. -/
def Memory.writeWords : Memory → Nat → List Word → Memory
  | m, _, [] => m
  | m, a, w :: ws => Memory.writeWords (m.writeWord a w) (a + 1) ws

/-- `mem[a]` of a state. -/
def State.word (s : State) (a : Nat) : Word :=
  s.mem.readWord a

/-- `MemRead(a)` (20_memory.md R33): the word, or none where it raises `MemoryBounds(a)`. -/
def State.memRead (s : State) (a : Nat) : Option Word :=
  if s.mlen ≤ a then none else some (s.word a)

/-- `MemWrite(a, v)` (R34): a write at or beyond the extent moves the extent to just past it. -/
def State.memWrite (s : State) (a : Nat) (w : Word) : State :=
  { s with mem := s.mem.writeWord a w, mlen := if s.mlen ≤ a then a + 1 else s.mlen }

/-! ### Registers, program counter, stack -/

/-- `x[r]` (R10). -/
def State.reg (s : State) (r : Fin 8) : Value :=
  s.regs[r]

/-- `x[r] <- v` (R11). -/
def State.setReg (s : State) (r : Fin 8) (v : Value) : State :=
  { s with regs := s.regs.set r v }

/-- `pc <- t` (R78). -/
def State.setPc (s : State) (t : Word) : State :=
  { s with pc := t }

/-- `pc <- pc + n` (R78). -/
def State.advance (s : State) (n : Nat) : State :=
  { s with pc := s.pc + BitVec.ofNat 16 n }

/-- `zext_16(v)` (R5). -/
def zext16 (v : Value) : Word :=
  BitVec.ofNat 16 v.toNat

/-- `Push(v)` (R5): append to the top of the stack. -/
def State.push (s : State) (v : Value) : State :=
  { s with stk := s.stk ++ [v] }

/-- The top of the stack, none when it is empty. -/
def State.top? (s : State) : Option Value :=
  s.stk.getLast?

/-- What `Pop()` (R5) leaves: the stack without its top. -/
def State.dropTop (s : State) : State :=
  { s with stk := s.stk.dropLast }

/-! ### Taking a fatal fault -/

/-- `Code(F)` (60_exceptions.md R132): the 3-bit fault code. -/
def FaultCode.code : FaultCode → BitVec 3
  | .none => 0
  | .unknownOpcode => 1
  | .memoryBounds => 2
  | .invalidDestination => 3
  | .illegalOperand => 4
  | .divideByZero => 5
  | .valueRange => 6

/-- What `raise F(info)` leaves (R131): the fault record written, and nothing else. -/
def State.record (s : State) (c : FaultCode) (info : Word) : State :=
  { s with fault := c, finfo := info }

/-- `raise F(info)` (R131). The fault is taken: the answer is a next state; the core is stopped from then on (R20). -/
def raiseFault (c : FaultCode) (info : Word) (s : State) : Result :=
  .next (s.record c info)

/-! ### Reset by load -/

/-- The host's register presets between load and start (60_exceptions.md R152), in order. -/
def State.preset : State → List (Fin 8 × Value) → State
  | s, [] => s
  | s, (r, v) :: ps => State.preset (s.setReg r v) ps

/-- `Reset(img, L)` (R160), with the host's moves that are still to come. -/
def State.loaded (img : List Word) (moves : List HostMove) : State :=
  { State.reset with mem := Memory.writeWords [] 0 img, mlen := img.length, host := moves }

/-- The memory image `mem[0..mlen-1]` (60_exceptions.md R147, `!dump`). -/
def State.dumpWords (s : State) : List Word :=
  (List.range s.mlen).map s.word

end Sys2Proof.Machine
end

