-- ==== Sys2Proof/Machine/Operands.lean ====
section
/-! DEFINITION. The operand resolver (40_execution_cycle.md R74) and the DECODE checks (R73), as the two ways an
instruction takes an operand. An instruction takes its destination first and then its sources in rising position, which
is the order of checks of R76. -/

namespace Sys2Proof.Machine

/-- `Resolve(w)` (R74): a literal is itself, a register reference is the register's content, an illegal operand has none. -/
def State.resolve (s : State) : Operand → Option Value
  | .lit v => some v
  | .reg r => some (s.reg r)
  | .illegal _ => none

/-- Go on with the destination register of an operand, or raise `InvalidDestination(w1)` (R73, R135): every word that is
no register reference does. -/
def withDst (a : Operand) (s : State) (k : Fin 8 → Result) : Result :=
  match a with
  | .reg r => k r
  | .lit _ => raiseFault .invalidDestination a.toWord s
  | .illegal _ => raiseFault .invalidDestination a.toWord s

/-- Go on with the value of a source operand, or raise `IllegalOperand(w)` (R73, R136). -/
def withSrc (a : Operand) (s : State) (k : Value → Result) : Result :=
  match s.resolve a with
  | some v => k v
  | none => raiseFault .illegalOperand a.toWord s

/-- Take a destination and two sources, and write a function of the two values: the shape of `eq`, `gt` and of the
three-operand arithmetic (R93, R94, R101 to R105). -/
def binary (f : Value → Value → Value) (a b c : Operand) (s : State) : Result :=
  withDst a s fun d => withSrc b s fun vb => withSrc c s fun vc => .next ((s.setReg d (f vb vc)).advance 4)

end Sys2Proof.Machine
end

