-- ==== Sys2Proof/Machine/Arith.lean ====
section
/-! DEFINITION. `add`, `mult`, `mod`, `and`, `or`, `not` (44_arith_logic.md). Sums and products are formed exactly and
reduced modulo 32768 (R100). -/

namespace Sys2Proof.Machine

/-- `add a b c` (R101). -/
def execAdd (a b c : Operand) (s : State) : Result :=
  binary (fun vb vc => BitVec.ofNat 15 (vb.toNat + vc.toNat)) a b c s

/-- `mult a b c` (R102). -/
def execMult (a b c : Operand) (s : State) : Result :=
  binary (fun vb vc => BitVec.ofNat 15 (vb.toNat * vc.toNat)) a b c s

/-- `mod a b c` (R103): a divisor of 0 raises `DivideByZero`, with the divisor's operand word (R137). -/
def execMod (a b c : Operand) (s : State) : Result :=
  withDst a s fun d => withSrc b s fun vb => withSrc c s fun vc =>
    if vc = 0 then raiseFault .divideByZero c.toWord s
    else .next ((s.setReg d (BitVec.ofNat 15 (vb.toNat % vc.toNat))).advance 4)

/-- `and a b c` (R104). -/
def execAnd (a b c : Operand) (s : State) : Result :=
  binary (fun vb vc => vb &&& vc) a b c s

/-- `or a b c` (R105). -/
def execOr (a b c : Operand) (s : State) : Result :=
  binary (fun vb vc => vb ||| vc) a b c s

/-- `not a b` (R106): the complement of the 15 bits. -/
def execNot (a b : Operand) (s : State) : Result :=
  withDst a s fun d => withSrc b s fun vb => .next ((s.setReg d (~~~vb)).advance 3)

end Sys2Proof.Machine
end

