-- ==== Sys2Proof/Machine/CharIO.lean ====
section
/-! DEFINITION. `out`, `in` (46_io.md R115, R116), with the output side of the I/O channel (R117). -/

namespace Sys2Proof.Machine

/-- `EmitChar(c)` (R115) with the channel behind the port (R117): the code joins the output sequence; a newline emits the
accumulator as one line and clears it, any other code joins the accumulator. -/
def State.emitChar (s : State) (c : Value) : State :=
  if c = Config.newline then
    { s with out := s.out ++ [c], outLines := s.outLines ++ [s.outAcc], outAcc := [] }
  else
    { s with out := s.out ++ [c], outAcc := s.outAcc ++ [c] }

/-- What `TakeChar()` (R119) leaves: the queue of pending characters without its head. -/
def State.dropChar (s : State) : State :=
  { s with inq := s.inq.tail }

/-- `out a` (R115). -/
def execOut (a : Operand) (s : State) : Result :=
  withSrc a s fun va => .next ((s.emitChar va).advance 2)

/-- `in a` (R116): take a character, after the destination check; while none is offered the core is held here and the
instruction has no effect (status WAIT_IN). -/
def execIn (a : Operand) (s : State) : Result :=
  withDst a s fun d =>
    match s.inq.head? with
    | none => .next s
    | some c => .next ((s.dropChar.setReg d c).advance 2)

end Sys2Proof.Machine
end

