-- ==== Sys2Proof/Machine/Flags.lean ====
section
/-! DEFINITION. The halt flag, the core's only flag (10_state.md R18, R24), and the 0 or 1 that a comparison writes to a
register in place of a condition code. -/

namespace Sys2Proof.Machine

/-- `halt <- 1` (R18); the program counter keeps the address of the instruction (R78). -/
def State.setHalt (s : State) : State :=
  { s with halt := true }

/-- `1 if p else 0`, the result of `eq` and `gt` (42_compare.md R93, R94). -/
def boolValue (p : Bool) : Value :=
  if p then 1 else 0

end Sys2Proof.Machine
end

