-- ==== Sys2Proof/Machine/Compare.lean ====
section
/-! DEFINITION. `eq`, `gt` (42_compare.md). -/

namespace Sys2Proof.Machine

/-- `eq a b c` (R93): 1 when the resolved values are equal, else 0. -/
def execEq (a b c : Operand) (s : State) : Result :=
  binary (fun vb vc => boolValue (vb == vc)) a b c s

/-- `gt a b c` (R94): 1 when the first value is the greater, unsigned, else 0. -/
def execGt (a b c : Operand) (s : State) : Result :=
  binary (fun vb vc => boolValue (decide (vc.toNat < vb.toNat))) a b c s

end Sys2Proof.Machine
end

