-- ==== Sys2Proof/Machine/Control.lean ====
section
/-! DEFINITION. `jmp`, `jt`, `jf`, `call`, `ret` (43_control.md). Targets are absolute word addresses; a target at or
beyond the extent is no fault at the jump (R83). -/

namespace Sys2Proof.Machine

/-- `jmp a` (R95). -/
def execJmp (a : Operand) (s : State) : Result :=
  withSrc a s fun va => .next (s.setPc (zext16 va))

/-- `jt a b` (R96): jump when the condition is not 0. The target operand is checked either way. -/
def execJt (a b : Operand) (s : State) : Result :=
  withSrc a s fun va => withSrc b s fun vb =>
    if va ≠ 0 then .next (s.setPc (zext16 vb)) else .next (s.advance 3)

/-- `jf a b` (R97): jump when the condition is 0. The target operand is checked either way. -/
def execJf (a b : Operand) (s : State) : Result :=
  withSrc a s fun va => withSrc b s fun vb =>
    if va = 0 then .next (s.setPc (zext16 vb)) else .next (s.advance 3)

/-- `call a` (R98): push the address after the operand, which must fit the 15-bit stack cell, and jump. -/
def execCall (a : Operand) (s : State) : Result :=
  withSrc a s fun va =>
    let ret := s.pc.toNat + 2
    if 32767 < ret then raiseFault .valueRange (BitVec.ofNat 16 ret) s
    else .next ((s.push (BitVec.ofNat 15 ret)).setPc (zext16 va))

/-- `ret` (R99): a graceful halt on an empty stack; else jump to the popped value. -/
def execRet (s : State) : Result :=
  match s.top? with
  | none => .next s.setHalt
  | some v => .next (s.dropTop.setPc (zext16 v))

end Sys2Proof.Machine
end

