-- ==== Sys2Proof/Machine/MemoryOps.lean ====
section
/-! DEFINITION. `rmem`, `wmem` (45_memory_ops.md). -/

namespace Sys2Proof.Machine

/-- `rmem a b` (R110): `MemoryBounds` at or beyond the extent, then `ValueRange` for a cell that does not fit 15 bits,
else the cell into the register. -/
def execRmem (a b : Operand) (s : State) : Result :=
  withDst a s fun d => withSrc b s fun ea =>
    match s.memRead ea.toNat with
    | none => raiseFault .memoryBounds (zext16 ea) s
    | some m =>
      if 32767 < m.toNat then raiseFault .valueRange m s
      else .next ((s.setReg d (BitVec.ofNat 15 m.toNat)).advance 3)

/-- `wmem a b` (R111): the value, zero-extended, into the cell; the write never faults and may grow the extent. -/
def execWmem (a b : Operand) (s : State) : Result :=
  withSrc a s fun ea => withSrc b s fun v => .next ((s.memWrite ea.toNat (zext16 v)).advance 3)

end Sys2Proof.Machine
end

