-- ==== Sys2Proof/Machine/MoveStack.lean ====
section
/-! DEFINITION. `set`, `push`, `pop` (41_move_stack.md). -/

namespace Sys2Proof.Machine

/-- `set a b` (R90): `x[d] <- Resolve(b)`. -/
def execSet (a b : Operand) (s : State) : Result :=
  withDst a s fun d => withSrc b s fun vb => .next ((s.setReg d vb).advance 3)

/-- `push a` (R91): append `Resolve(a)` to the stack. -/
def execPush (a : Operand) (s : State) : Result :=
  withSrc a s fun va => .next ((s.push va).advance 2)

/-- `pop a` (R92): a graceful halt on an empty stack, after the destination check; else `x[d] <- Pop()`. -/
def execPop (a : Operand) (s : State) : Result :=
  withDst a s fun d =>
    match s.top? with
    | none => .next s.setHalt
    | some v => .next ((s.dropTop.setReg d v).advance 2)

end Sys2Proof.Machine
end

