-- ==== Sys2Proof/Machine/System.lean ====
section
/-! DEFINITION. `halt`, `noop` (47_system.md). -/

namespace Sys2Proof.Machine

/-- `halt` (R120): set the halt flag; the program counter is unchanged. -/
def execHalt (s : State) : Result :=
  .next s.setHalt

/-- `noop` (R121): only the program counter advances. -/
def execNoop (s : State) : Result :=
  .next (s.advance 1)

end Sys2Proof.Machine
end

