-- ==== Sys2Proof/Machine/DebugPort.lean ====
section
/-! DEFINITION. The debug port (60_exceptions.md R146 to R150): what each operation returns or does. When the port may be
used is said in Machine/HostPort.lean. -/

namespace Sys2Proof.Machine

/-- The debug read operations (R147). A memory word at or beyond the extent is reported as out of range and faults
nothing. -/
def debugRead (q : DebugRead) (s : State) : DebugReply :=
  match q with
  | .pc => .word s.pc
  | .registers => .registers s.regs
  | .stack => .stack s.stk
  | .memory a => if s.mlen ≤ a then .outOfRange else .word (s.word a)
  | .image => .image s.dumpWords
  | .mlen => .extent s.mlen
  | .halt => .flag s.halt
  | .fault => .fault s.fault
  | .finfo => .word s.finfo

/-- The debug memory write (R149): `MemWrite(a + k, v_k)` for `k = 0, 1, ..` while `a + k <= 32767`; words that would fall
beyond are dropped. -/
def State.poke : State → Nat → List Word → State
  | s, _, [] => s
  | s, a, w :: ws => if a < Config.memCap then State.poke (s.memWrite a w) (a + 1) ws else s

/-- The effect of one debug port operation on the core (R147 to R149): a read has none. -/
def State.debug (s : State) (op : DebugOp) : State :=
  match op with
  | .read _ => s
  | .halt => s.setHalt
  | .writeReg r v => s.setReg r v
  | .writeMem a ws => s.poke a.toNat ws

end Sys2Proof.Machine
end

