-- ==== Sys2Proof/Machine/Channel.lean ====
section
/-! DEFINITION. The input side of the I/O channel (46_io.md R118, R119), and of the debug command processor only what
decides which port operation a reserved line performs (60_exceptions.md R146 to R151). Character codes are ASCII,
PRESUMED as in the spec's examples (G3; log 12). -/

namespace Sys2Proof.Machine

/-- A line of character codes. -/
abbrev Line := List Value

/-! ### Tokens and numbers of a line -/

/-- White space between tokens: the ASCII codes 9 to 13 and 32. PRESUMED (log 12). -/
def isSpace (c : Value) : Bool :=
  c = 32 || (9 ≤ c.toNat && c.toNat ≤ 13)

/-- The white-space-delimited tokens of a line; `cur` is the token being read. -/
def splitTokens : Line → Line → List Line
  | [], cur => if cur.isEmpty then [] else [cur]
  | c :: cs, cur =>
    if isSpace c then
      if cur.isEmpty then splitTokens cs [] else cur :: splitTokens cs []
    else splitTokens cs (cur ++ [c])

/-- The value of a hexadecimal digit `0`-`9`, `a`-`f`, `A`-`F`. -/
def hexDigit (c : Value) : Option Nat :=
  let n := c.toNat
  if 48 ≤ n ∧ n ≤ 57 then some (n - 48)
  else if 97 ≤ n ∧ n ≤ 102 then some (n - 87)
  else if 65 ≤ n ∧ n ≤ 70 then some (n - 55)
  else none

/-- Continue reading a base-16 integer from its digits. -/
def hexFrom : Nat → Line → Option Nat
  | n, [] => some n
  | n, c :: cs =>
    match hexDigit c with
    | some d => hexFrom (16 * n + d) cs
    | none => none

/-- A token made of hexadecimal digits, as a base-16 integer (R149). -/
def hexValue (t : Line) : Option Nat :=
  if t.isEmpty then none else hexFrom 0 t

/-- All tokens as base-16 integers, none when one of them is not made of hexadecimal digits. -/
def hexValues : List Line → Option (List Nat)
  | [] => some []
  | t :: ts =>
    match hexValue t, hexValues ts with
    | some n, some ns => some (n :: ns)
    | _, _ => none

/-! ### Reserved commands (R118) -/

/-- `!help`. -/
def cmdHelp : Line := [33, 104, 101, 108, 112]
/-- `!history`. -/
def cmdHistory : Line := [33, 104, 105, 115, 116, 111, 114, 121]
/-- `!halt`. -/
def cmdHalt : Line := [33, 104, 97, 108, 116]
/-- `!kill`. -/
def cmdKill : Line := [33, 107, 105, 108, 108]
/-- `!dump`. -/
def cmdDump : Line := [33, 100, 117, 109, 112]
/-- `!pos`. -/
def cmdPos : Line := [33, 112, 111, 115]
/-- `!getreg`. -/
def cmdGetreg : Line := [33, 103, 101, 116, 114, 101, 103]
/-- `!getstack`. -/
def cmdGetstack : Line := [33, 103, 101, 116, 115, 116, 97, 99, 107]
/-- `!setreg`. -/
def cmdSetreg : Line := [33, 115, 101, 116, 114, 101, 103]
/-- `!poke`. -/
def cmdPoke : Line := [33, 112, 111, 107, 101]
/-- `!peek`. -/
def cmdPeek : Line := [33, 112, 101, 101, 107]

/-- The fixed set of reserved commands (R118). -/
def reservedCommands : List Line :=
  [cmdHelp, cmdHistory, cmdHalt, cmdKill, cmdDump, cmdPos, cmdGetreg, cmdGetstack, cmdSetreg, cmdPoke, cmdPeek]

/-- A line is reserved when its first token is one of the reserved commands, case-sensitive (R118; log 13). -/
def isReserved (line : Line) : Bool :=
  match splitTokens line [] with
  | [] => false
  | cmd :: _ => reservedCommands.contains cmd

/-- The arguments of `!setreg <idx 0..7> <value 0..32767>` (R149): the register write, or none when they are malformed.
Fewer than two arguments are malformed; two base-16 integers are checked against the ranges; any other form is the
parameter `Config.oddSetreg` (log 14). -/
def setregArgs (args : List Line) : Option (Fin 8 × Value) :=
  match args with
  | [] => none
  | [_] => none
  | [i, v] =>
    match hexValue i, hexValue v with
    | some i, some v =>
      if h : i < 8 then
        if v < 32768 then some (⟨i, h⟩, BitVec.ofNat 15 v) else none
      else none
    | _, _ => Config.oddSetreg args
  | _ => Config.oddSetreg args

/-- The arguments of `!poke <addr> <value...>` (R149): the memory write, or none when they are malformed. No value is
malformed; base-16 integers are checked against base 0..32767; values above 16 bits and tokens that are no base-16
integers are the parameter `Config.oddPoke` (log 14). -/
def pokeArgs (args : List Line) : Option (Value × List Word) :=
  match args with
  | [] => none
  | [_] => none
  | _ =>
    match hexValues args with
    | some (a :: vs) =>
      if 32767 < a then none
      else if vs.all (fun v => decide (v < 65536)) then some (BitVec.ofNat 15 a, vs.map (BitVec.ofNat 16))
      else Config.oddPoke args
    | _ => Config.oddPoke args

/-- The tokens after `!halt` or `!kill` (R148): with none, debug halt. Whether a line with further tokens halts or is
reported as malformed is open, and is the parameter `Config.oddHalt` (log 14). -/
def haltArgs (args : List Line) : Option DebugOp :=
  match args with
  | [] => some .halt
  | _ => if Config.oddHalt args then some .halt else none

/-- The operation of the debug port that a reserved line performs, none for a command that does not touch the core or
whose arguments are reported as malformed. `!peek` reads memory words, as many as its count says; like every read it
changes nothing (R147), so it is none here. Tokens after `!pos`, `!getreg`, `!getstack` or `!dump` are ignored, the
model's choice: a report of malformed arguments would change no more than the read does (log 14, log 28). -/
def commandOp (line : Line) : Option DebugOp :=
  match splitTokens line [] with
  | [] => none
  | cmd :: args =>
    if cmd = cmdHalt ∨ cmd = cmdKill then haltArgs args
    else if cmd = cmdPos then some (.read .pc)
    else if cmd = cmdGetreg then some (.read .registers)
    else if cmd = cmdGetstack then some (.read .stack)
    else if cmd = cmdDump then some (.read .image)
    else if cmd = cmdSetreg then (setregArgs args).map fun p => .writeReg p.1 p.2
    else if cmd = cmdPoke then (pokeArgs args).map fun p => .writeMem p.1 p.2
    else none

/-! ### The channel's two states (R118) -/

/-- COLLECTING: a character that is not newline joins the input accumulator; newline moves to DISPATCHING. -/
def State.typeKey (s : State) (c : Value) : State :=
  if c = Config.newline then { s with chan := .dispatching } else { s with inAcc := s.inAcc ++ [c] }

/-- DISPATCHING, what every line does: archive the accumulator into the history and clear it; back to COLLECTING. -/
def State.archive (s : State) : State :=
  { s with history := s.history ++ [s.inAcc], inAcc := [], chan := .collecting }

/-- A non-reserved line is delivered: its characters and the trailing newline join the pending characters (R119). -/
def State.deliver (s : State) (line : Line) : State :=
  { s with inq := s.inq ++ line ++ [Config.newline] }

/-- DISPATCHING: archive the completed line, then run a reserved command through the debug port and deliver nothing, or
deliver the line (R118). -/
def State.dispatchLine (s : State) : State :=
  if isReserved s.inAcc then
    match commandOp s.inAcc with
    | some op => s.archive.debug op
    | none => s.archive
  else s.archive.deliver s.inAcc

end Sys2Proof.Machine
end

