-- ==== Sys2Proof/Machine/Fetch.lean ====
section
/-! DEFINITION. CHECK, FETCH and OPFETCH (40_execution_cycle.md R71, R72), the run status (10_state.md R20), and the
placing of an instruction where the next step fetches it. -/

namespace Sys2Proof.Machine

/-- What fetching gives: an instruction, or the fault that fetching raises. -/
inductive Fetched where
  | ok (i : Instr)
  | raises (c : FaultCode) (info : Word)
  deriving DecidableEq, Repr

/-- The in-bounds words from the program counter on, at most the four of the longest instruction. Reading a word changes
nothing (20_memory.md R33), so reading more than the instruction needs is not observable. -/
def State.fetchWindow (s : State) : List Word :=
  (List.range (min 4 (s.mlen - s.pc.toNat))).map fun k => s.word (s.pc.toNat + k)

/-- FETCH and OPFETCH: `UnknownOpcode(w0)` for an opcode word above 21; `MemoryBounds(pc + i)` for the least operand
position `i` that lies at or beyond the extent (R71, R72). -/
def fetch (s : State) : Fetched :=
  match decodeWords s.fetchWindow with
  | .ok i _ => .ok i
  | .unknownOpcode w0 => .raises .unknownOpcode w0
  | .truncated k => .raises .memoryBounds (BitVec.ofNat 16 (s.pc.toNat + k))

/-- The instruction at the program counter is an `in` that passes its decode checks, and the input port offers no
character (R20, 46_io.md R119). -/
def State.waiting (s : State) : Bool :=
  match fetch s with
  | .ok (.in_ (.reg _)) => s.inq.isEmpty
  | _ => false

/-- The run status (R20). -/
def State.status (s : State) : Status :=
  if s.fault ≠ .none then .faulted
  else if s.halt then .halted
  else if s.mlen ≤ s.pc.toNat then .ranOff
  else if s.waiting then .waitIn
  else .running

/-- The exit code that a software host derives from the status in which a run ended; none while the run is not over
(40_execution_cycle.md R82). -/
def exitCode : Status → Option Nat
  | .running => none
  | .waitIn => none
  | .halted => some 0
  | .faulted => some 2
  | .ranOff => some 0

/-- The state with an instruction's words stored where the next step fetches: at the program counter, or at 0 when four
words do not fit below the address ceiling there; the extent reaches past them, and the core is not stopped. It stands
for the load of a program (log 4, log 23). -/
def placeWords (s : State) (ws : List Word) : State :=
  let p := if s.pc.toNat + ws.length ≤ Config.memCap then s.pc.toNat else 0
  { s with
    pc := BitVec.ofNat 16 p
    mem := s.mem.writeWords p ws
    mlen := max s.mlen (p + ws.length)
    halt := false
    fault := .none }

end Sys2Proof.Machine
end

