-- ==== Sys2Proof/Machine/HostPort.lean ====
section
/-! DEFINITION. When the environment may act, and what its move does (60_exceptions.md R146, R152;
70_reset_and_hazards.md R166): on a waiting core any move, on a stopped core a debug read or a load, on a running core
nothing. One move is one step (R146: "atomic with respect to instructions"). -/

namespace Sys2Proof.Machine

/-- The load of an image (R160) with the host's presets (R152); an image that does not fit is refused (R162). -/
def hostLoad (img : List Word) (presets : List (Fin 8 × Value)) (moves : List HostMove) : Result :=
  if Config.memCap < img.length then .refused .imageTooLong
  else .next ((State.loaded img moves).preset presets)

/-- The state with the host's next move taken off. -/
def State.dropMove (s : State) : State :=
  { s with host := s.host.tail }

/-- The host's move on a core that waits at `in` (R152). That the host may use the debug port itself, beside the reserved
lines that reach the port through the attached channel (70_reset_and_hazards.md R171), and also while the input
accumulator holds part of a line, is the model's choice (log 31). -/
def waitMove (m : HostMove) (s : State) : Result :=
  match m with
  | .key c => .next (s.dropMove.typeKey c)
  | .debug op => .next (s.dropMove.debug op)
  | .load img presets => hostLoad img presets s.host.tail

/-- A stopped core takes no step (R20, R71), but the host may read it or load it again (R152). `f` names why it is
stopped. -/
def stoppedStep (f : Fault) (s : State) : Result :=
  match s.host with
  | .load img presets :: moves => hostLoad img presets moves
  | .debug (.read _) :: _ => .next s.dropMove
  | _ => .fault f

/-- The environment's part of a step: some answer when the core is stopped, when the channel has a completed line to
interpret for the waiting core, or when the host moves; none when the core runs the instruction at the program counter.
A waiting core with no move to come runs its `in`, which is held (46_io.md R116). -/
def environmentStep (s : State) : Option Result :=
  match s.status with
  | .faulted => some (stoppedStep .faulted s)
  | .halted => some (stoppedStep .halted s)
  | .ranOff => some (stoppedStep .ranOff s)
  | .waitIn =>
    match s.chan, s.host with
    | .dispatching, _ => some (.next s.dispatchLine)
    | .collecting, m :: _ => some (waitMove m s)
    | .collecting, [] => none
  | .running => none

end Sys2Proof.Machine
end

