-- ==== Sys2Proof/Machine/Step.lean ====
section
/-! DEFINITION. One step of the machine (40_execution_cycle.md R79, R80). -/

namespace Sys2Proof.Machine

/-- One step: the environment's part where it has one; else fetch at the program counter, and run the instruction or take
the fault that fetching raises (R71 to R79). -/
def step (s : State) : Host.Outcome State Fault Refusal :=
  match environmentStep s with
  | some r => r
  | none =>
    match fetch s with
    | .ok i => exec i s
    | .raises c info => raiseFault c info s

/-- `s` with the instruction of a table word stored where the next step fetches. -/
def State.withFetchWord (s : State) (nbits w : Nat) : State :=
  placeWords s (tableWords nbits w)

end Sys2Proof.Machine
end

