-- ==== Sys2Proof/WellFormed.lean ====
section
/-! DEFINITION. Well-formed instructions: those that pass the DECODE checks of 40_execution_cycle.md R73. An ill-formed
instruction exists as a word sequence and has a meaning: it raises a fault (R135, R136). -/

namespace Sys2Proof

/-- `IsReg(w)` (R55): the operand is a register reference. -/
def Operand.isReg : Operand → Bool
  | .lit _ => false
  | .reg _ => true
  | .illegal _ => false

/-- The operand may stand at a source position: a literal or a register reference (R54). -/
def Operand.isSource : Operand → Bool
  | .lit _ => true
  | .reg _ => true
  | .illegal _ => false

/-- The destination operand of the 12 instructions that have one (R11, last column of R52). -/
def Instr.dst? : Instr → Option Operand
  | .halt => none
  | .set a _ => some a
  | .push _ => none
  | .pop a => some a
  | .eq a _ _ => some a
  | .gt a _ _ => some a
  | .jmp _ => none
  | .jt _ _ => none
  | .jf _ _ => none
  | .add a _ _ => some a
  | .mult a _ _ => some a
  | .mod a _ _ => some a
  | .and a _ _ => some a
  | .or a _ _ => some a
  | .not a _ => some a
  | .rmem a _ => some a
  | .wmem _ _ => none
  | .call _ => none
  | .ret => none
  | .out _ => none
  | .in_ a => some a
  | .noop => none

/-- The source operands in rising position: every operand position but the destination (R52, R62). -/
def Instr.sources : Instr → List Operand
  | .halt => []
  | .set _ b => [b]
  | .push a => [a]
  | .pop _ => []
  | .eq _ b c => [b, c]
  | .gt _ b c => [b, c]
  | .jmp a => [a]
  | .jt a b => [a, b]
  | .jf a b => [a, b]
  | .add _ b c => [b, c]
  | .mult _ b c => [b, c]
  | .mod _ b c => [b, c]
  | .and _ b c => [b, c]
  | .or _ b c => [b, c]
  | .not _ b => [b]
  | .rmem _ b => [b]
  | .wmem a b => [a, b]
  | .call a => [a]
  | .ret => []
  | .out a => [a]
  | .in_ _ => []
  | .noop => []

/-- The instruction passes the checks of DECODE (R73): its destination, if any, is a register reference, and each source
is a literal or a register reference. -/
def Instr.wf (i : Instr) : Bool :=
  (match i.dst? with
    | some a => a.isReg
    | none => true) && i.sources.all Operand.isSource

end Sys2Proof
end

