-- ==== Sys2Proof/Safety.lean ====
section
/-! DEFINITION. The terms claims are stated in: frames between two states, what it means that the next step runs an
instruction, the rules common to all instructions, and the invariants of the machine. -/

namespace Sys2Proof.Machine

/-! ### Frames -/

/-- Every byte of memory reads as before, the memories are equal as data, and the extent is unchanged. -/
def SameMemory (s t : State) : Prop :=
  (∀ a, t.mem.read a = s.mem.read a) ∧ t.mem = s.mem ∧ t.mlen = s.mlen

/-- The halt flag and the fault record are unchanged. -/
def SameRecord (s t : State) : Prop :=
  t.halt = s.halt ∧ t.fault = s.fault ∧ t.finfo = s.finfo

/-- The output side of the ports and of the I/O channel is unchanged. -/
def SameOutput (s t : State) : Prop :=
  t.out = s.out ∧ t.outAcc = s.outAcc ∧ t.outLines = s.outLines

/-- The input side of the I/O channel, but for the queue of pending characters, and the host's moves are unchanged. -/
def SameChannel (s t : State) : Prop :=
  t.inAcc = s.inAcc ∧ t.history = s.history ∧ t.chan = s.chan ∧ t.host = s.host

/-- Register `d` holds `v`, and every other register is unchanged. -/
def RegWritten (s t : State) (d : Fin 8) (v : Value) : Prop :=
  t.reg d = v ∧ ∀ r, r ≠ d → t.reg r = s.reg r

/-- The words `ws` are stored from address `a` upward, those beyond address 32767 dropped; every other word reads as
before; the extent reaches past the words stored (60_exceptions.md R149). -/
def WordsStored (s t : State) (a : Value) (ws : List Word) : Prop :=
  (∀ k (h : k < ws.length), a.toNat + k ≤ 32767 → t.word (a.toNat + k) = ws[k]) ∧
  (∀ k, k < a.toNat ∨ a.toNat + ws.length ≤ k ∨ 32767 < k → t.word k = s.word k) ∧
  (ws ≠ [] → t.mlen = max s.mlen (min (a.toNat + ws.length) 32768)) ∧ (ws = [] → t.mlen = s.mlen)

/-- Every register is unchanged. -/
def SameRegs (s t : State) : Prop :=
  ∀ r, t.reg r = s.reg r

/-- Outside registers, program counter, stack and memory nothing changes. -/
def SameRest (s t : State) : Prop :=
  SameRecord s t ∧ SameOutput s t ∧ SameChannel s t ∧ t.inq = s.inq

/-- Outside registers and program counter nothing changes. -/
def SameButRegsPc (s t : State) : Prop :=
  t.stk = s.stk ∧ SameMemory s t ∧ SameRest s t

/-- Change the state of an answer that is a next state. -/
def mapNext (f : State → State) : Result → Result
  | .next t => .next (f t)
  | .fault r => .fault r
  | .refused r => .refused r

/-! ### The next step -/

/-- CHECK passes (R71): no fault recorded, not halted, program counter below the extent. -/
def CanStep (s : State) : Prop :=
  s.fault = .none ∧ s.halt = false ∧ s.pc.toNat < s.mlen

/-- The words from the program counter on, all in bounds, are `ws`. -/
def WordsAtPc (s : State) (ws : List Word) : Prop :=
  ∀ k (h : k < ws.length), s.pc.toNat + k < s.mlen ∧ s.word (s.pc.toNat + k) = ws[k]

/-- The host may load an image now (R152, 70_reset_and_hazards.md R166): the core is stopped, or it waits and the channel
has no line to interpret. -/
def HostMayLoad (s : State) : Prop :=
  s.status ≠ .running ∧ (s.status = .waitIn → s.chan = .collecting)

/-! ### What is common to all instructions -/

/-- The operand counts of the 22 opcodes in the order of their opcode values (30_encoding.md R52). -/
def operandCounts : List Nat :=
  [0, 2, 1, 1, 3, 3, 1, 2, 2, 3, 3, 3, 3, 3, 2, 2, 2, 1, 0, 1, 1, 0]

/-- The instruction is encoded as `ws`, and `ws`, whatever follows it, decodes to the instruction (R56). -/
def EncodedAs (i : Instr) (ws : List Word) : Prop :=
  encode i = ws ∧ ∀ rest, decodeWords (ws ++ rest) = .ok i rest

/-- The faults every instruction with operands can raise before it executes, in their order (R72, R73, R76): an operand
word at or beyond the extent, a destination that is no register reference, the illegal source operand at the lowest
position. Each writes the fault record and nothing else (R131). -/
def CommonFaults (i : Instr) : Prop :=
  (∀ s k, CanStep s → 0 < k → k < (encode i).length → WordsAtPc s ((encode i).take k) → s.pc.toNat + k = s.mlen →
    step s = .next (s.record .memoryBounds (BitVec.ofNat 16 s.mlen))) ∧
  (∀ s a, i.dst? = some a → a.isReg = false → exec i s = .next (s.record .invalidDestination a.toWord)) ∧
  (∀ s before o after, (∀ a, i.dst? = some a → a.isReg = true) → i.sources = before ++ o :: after →
    before.all Operand.isSource = true → o.isSource = false →
    exec i s = .next (s.record .illegalOperand o.toWord))

/-! ### Invariants -/

/-- No fatal fault has been recorded. -/
def State.safe (s : State) : Prop :=
  s.fault = .none

/-- Memory is in its canonical form, cells at and above the extent hold 0 (10_state.md R17), the extent stays within the
address ceiling (R17), and the program counter stays in 0..32768 (R12). -/
structure CoreInv (s : State) : Prop where
  memory_wf : s.mem.wf
  cells_below_extent : ∀ c ∈ s.mem, c.1 < 2 * s.mlen
  extent_le : s.mlen ≤ Config.memCap
  pc_le : s.pc.toNat ≤ Config.memCap

/-- What the fault information word may hold beside each fault code (60_exceptions.md R132). -/
def recordFits : FaultCode → Word → Prop
  | .none, w => w = 0
  | .unknownOpcode, w => 21 < w.toNat
  | .memoryBounds, w => w.toNat ≤ 32768
  | .invalidDestination, w => w.toNat < 32768 ∨ 32775 < w.toNat
  | .illegalOperand, w => 32775 < w.toNat
  | .divideByZero, w => w = 0 ∨ (32768 ≤ w.toNat ∧ w.toNat ≤ 32775)
  | .valueRange, w => 32767 < w.toNat

/-- The fault record is one the table of R132 allows, and a faulted core is not halted as well (R20). -/
structure RecordInv (s : State) : Prop where
  fits : recordFits s.fault s.finfo
  not_both : s.fault ≠ .none → s.halt = false

/-- The complete lines of a code sequence, and what follows the last newline. -/
def splitLines : List Value → List Line × Line
  | [] => ([], [])
  | c :: cs =>
    let (ls, r) := splitLines cs
    if c = Config.newline then ([] :: ls, r)
    else
      match ls with
      | [] => ([], c :: r)
      | l :: ls => ((c :: l) :: ls, r)

/-- The emitted lines and the output accumulator are a function of the output codes (46_io.md R117); the channel's input
accumulator and archived lines hold no newline (R118); and the channel is DISPATCHING only while the core waits at `in`
(R118, 60_exceptions.md R146). -/
structure ChannelInv (s : State) : Prop where
  lines : splitLines s.out = (s.outLines, s.outAcc)
  acc_no_newline : Config.newline ∉ s.inAcc
  history_no_newline : ∀ l ∈ s.history, Config.newline ∉ l
  dispatching_waits : s.chan = .dispatching → s.status = .waitIn

end Sys2Proof.Machine
end

