-- ==== Sys2Proof/Certificates/Slice0/Obligations.lean ====
section
/-! DEFINITION. The statements for the provers. Each formalises rules of spec/; frames and invariants are named in
Safety.lean. -/

open Sys2Proof Sys2Proof.Machine

/-! ### Encoding (30_encoding.md) -/

/-- R50, R52, R53, R56: no bit of an encoding is dropped. For every instruction, with every operand at every value. -/
def Obligations.DecodeGivesBackEncodedInstruction : Prop :=
  ∀ i : Instr, (∀ rest, decodeWords (encode i ++ rest) = .ok i rest) ∧
    ∀ bs, decode (encodeBytes i ++ bs) = .ok i (wordsOfBytes bs)

/-- R51, R53, R59: each word sequence has one meaning: what decodes to an instruction is that instruction's encoding. -/
def Obligations.EncodeGivesBackDecodedWords : Prop :=
  ∀ ws i rest, decodeWords ws = .ok i rest → ws = encode i ++ rest

/-- R51, R52, R57, R59: the opcode word alone tells whether there is an instruction and how long it is. -/
def Obligations.OpcodeWordAloneDecidesLength : Prop :=
  ∀ (w0 : Word) (ws : List Word),
    (21 < w0.toNat → decodeWords (w0 :: ws) = .unknownOpcode w0) ∧
    (∀ n, operandCounts[w0.toNat]? = some n →
      (n ≤ ws.length → ∃ i, decodeWords (w0 :: ws) = .ok i (ws.drop n) ∧ (encode i).length = 1 + n) ∧
      (ws.length < n → decodeWords (w0 :: ws) = .truncated (1 + ws.length)))

/-- Words of 95_test_vectors.md decode to the instructions they stand for, one of each family. -/
def Obligations.SampleWordsDecode : Prop :=
  decodeWords [1, 32769, 5] = .ok (.set (.reg 1) (.lit 5)) [] ∧
  decodeWords [5, 32768, 6, 5] = .ok (.gt (.reg 0) (.lit 6) (.lit 5)) [] ∧
  decodeWords [7, 32769, 6] = .ok (.jt (.reg 1) (.lit 6)) [] ∧
  decodeWords [9, 32768, 32769, 4] = .ok (.add (.reg 0) (.reg 1) (.lit 4)) [] ∧
  decodeWords [16, 30, 32768] = .ok (.wmem (.lit 30) (.reg 0)) [] ∧
  decodeWords [20, 32768] = .ok (.in_ (.reg 0)) [] ∧
  decodeWords [21] = .ok .noop []

/-- R53: the three classes of an operand word and the value each denotes, by the ranges, which are the source's, and by the
bits of the word, which the spec marks as its own inference (`[derived: from the three ranges]`). -/
def Obligations.OperandWordsFallIntoThreeClasses : Prop :=
  ∀ w : Word,
    (w.toNat ≤ 32767 → ∃ v, Operand.ofWord w = .lit v ∧ v.toNat = w.toNat) ∧
    (32768 ≤ w.toNat → w.toNat ≤ 32775 → ∃ r, Operand.ofWord w = .reg r ∧ r.val = w.toNat - 32768) ∧
    (32776 ≤ w.toNat → ∃ k, Operand.ofWord w = .illegal k) ∧
    (w.getLsbD 15 = false → Operand.ofWord w = .lit (w.extractLsb' 0 15)) ∧
    (w.getLsbD 15 = true → w.extractLsb' 3 12 = 0 → ∃ r, Operand.ofWord w = .reg r ∧ r.val = (w.extractLsb' 0 3).toNat) ∧
    (w.getLsbD 15 = true → w.extractLsb' 3 12 ≠ 0 → ∃ k, Operand.ofWord w = .illegal k) ∧
    (Operand.ofWord w).toWord = w

/-- R55, R74: the resolver on every word, `IsReg` on every word, and the fault that an illegal source word raises. -/
def Obligations.ResolverSelectsLiteralOrRegister : Prop :=
  ∀ (s : State) (w : Word),
    (w.toNat ≤ 32767 → ∃ v, s.resolve (.ofWord w) = some v ∧ v.toNat = w.toNat) ∧
    (∀ r : Fin 8, w.toNat = 32768 + r.val → s.resolve (.ofWord w) = some (s.reg r)) ∧
    (32776 ≤ w.toNat → s.resolve (.ofWord w) = none ∧
      ∀ k, withSrc (.ofWord w) s k = .next (s.record .illegalOperand w)) ∧
    ((Operand.ofWord w).isReg = true ↔ 32768 ≤ w.toNat ∧ w.toNat ≤ 32775)

/-! ### The cycle (40_execution_cycle.md) -/

/-- R71, R72, R75, R79: where CHECK passes and the words at the program counter decode to an instruction, the step is that
instruction's meaning; unless it is an `in` that waits while the environment has something to do (R152). That the
environment's part is then a step of its own is the model's choice (log 9, log 11). -/
def Obligations.StepRunsTheInstructionAtPc : Prop :=
  ∀ (s : State) (i : Instr) (ws : List Word), CanStep s → WordsAtPc s ws → decodeWords ws = .ok i [] →
    ¬ ((∃ d, i = .in_ (.reg d)) ∧ s.inq = [] ∧ (s.chan = .dispatching ∨ s.host ≠ [])) →
    step s = exec i s

/-- R133 (and R57, R71): an opcode word above 21 raises `UnknownOpcode`, whether or not operand words lie in bounds. -/
def Obligations.UnknownOpcodeIsAFatalFault : Prop :=
  ∀ s : State, CanStep s → 21 < (s.word s.pc.toNat).toNat →
    step s = .next (s.record .unknownOpcode (s.word s.pc.toNat))

/-- R20, R71: a stopped core takes no step until the host loads or reads it, and what stopped it is told in the order
fault, halt, bounds. That the answer is an outcome `fault` is the model's choice (log 7). -/
def Obligations.StoppedCoreTakesNoStep : Prop :=
  ∀ s : State, (∀ img ps moves, s.host ≠ .load img ps :: moves) → (∀ q moves, s.host ≠ .debug (.read q) :: moves) →
    (s.fault ≠ .none → step s = .fault .faulted) ∧
    (s.fault = .none → s.halt = true → step s = .fault .halted) ∧
    (s.fault = .none → s.halt = false → s.mlen ≤ s.pc.toNat → step s = .fault .ranOff)

/-- R83: a jump, call or return to an address at or beyond the extent is no fault: the program counter takes the target,
and the next CHECK finds the core run off. -/
def Obligations.JumpBeyondExtentRunsOff : Prop :=
  ∀ (s : State) (a b : Operand) (target : Value), s.fault = .none → s.halt = false → s.mlen ≤ target.toNat →
    let off (r : Result) := ∃ t, r = .next t ∧ t.pc.toNat = target.toNat ∧ t.fault = .none ∧ t.halt = false ∧
      t.status = .ranOff
    (s.resolve a = some target → off (exec (.jmp a) s)) ∧
    (∀ c, s.resolve a = some c → c ≠ 0 → s.resolve b = some target → off (exec (.jt a b) s)) ∧
    (s.resolve a = some 0 → s.resolve b = some target → off (exec (.jf a b) s)) ∧
    (s.resolve a = some target → s.pc.toNat + 2 ≤ 32767 → off (exec (.call a) s)) ∧
    (∀ below, s.stk = below ++ [target] → off (exec .ret s))

/-- R75, R79: no instruction, in any state, is left without a next state; a fault is taken as one (log 6). -/
def Obligations.EveryInstructionAnswersANextState : Prop :=
  ∀ (i : Instr) (s : State), ∃ t, exec i s = .next t

/-! ### Data movement and stack (41_move_stack.md) -/

/-- R90. -/
def Obligations.SetRule : Prop :=
  ∀ a b : Operand, EncodedAs (.set a b) [1, a.toWord, b.toWord] ∧ CommonFaults (.set a b) ∧
    ∀ (s : State) (d : Fin 8) (v : Value), a = .reg d → s.resolve b = some v →
      ∃ t, exec (.set a b) s = .next t ∧ RegWritten s t d v ∧ t.pc = s.pc + 3 ∧ SameButRegsPc s t

/-- R91, with the source's property that a `pop` into the same register right after undoes the `push`. -/
def Obligations.PushRule : Prop :=
  ∀ a : Operand, EncodedAs (.push a) [2, a.toWord] ∧ CommonFaults (.push a) ∧
    (∀ (s : State) (v : Value), s.resolve a = some v →
      ∃ t, exec (.push a) s = .next t ∧ t.stk = s.stk ++ [v] ∧ t.pc = s.pc + 2 ∧
        SameRegs s t ∧ SameMemory s t ∧ SameRest s t) ∧
    (∀ (s : State) (r : Fin 8), a = .reg r →
      ∃ t u, exec (.push a) s = .next t ∧ exec (.pop (.reg r)) t = .next u ∧ u.stk = s.stk ∧ u.pc = s.pc + 4 ∧
        SameRegs s u ∧ SameMemory s u ∧ SameRest s u)

/-- R92, R15: the empty stack is tested after the destination, and the program counter is then unchanged: the spec's
decisions D16 and D15. -/
def Obligations.PopRule : Prop :=
  ∀ a : Operand, EncodedAs (.pop a) [3, a.toWord] ∧ CommonFaults (.pop a) ∧
    (∀ (s : State) (d : Fin 8), a = .reg d → s.stk = [] → exec (.pop a) s = .next { s with halt := true }) ∧
    (∀ (s : State) (d : Fin 8) (below : List Value) (v : Value), a = .reg d → s.stk = below ++ [v] →
      ∃ t, exec (.pop a) s = .next t ∧ RegWritten s t d v ∧ t.stk = below ∧ t.pc = s.pc + 2 ∧
        SameMemory s t ∧ SameRest s t)

/-! ### Comparison (42_compare.md) -/

/-- R93, R94: 1 or 0 to a register, compared as unsigned integers. -/
def Obligations.CompareRules : Prop :=
  ∀ a b c : Operand,
    EncodedAs (.eq a b c) [4, a.toWord, b.toWord, c.toWord] ∧ CommonFaults (.eq a b c) ∧
    EncodedAs (.gt a b c) [5, a.toWord, b.toWord, c.toWord] ∧ CommonFaults (.gt a b c) ∧
    ∀ (s : State) (d : Fin 8) (vb vc : Value), a = .reg d → s.resolve b = some vb → s.resolve c = some vc →
      (∃ t, exec (.eq a b c) s = .next t ∧
        ((vb = vc ∧ RegWritten s t d 1) ∨ (vb ≠ vc ∧ RegWritten s t d 0)) ∧ t.pc = s.pc + 4 ∧ SameButRegsPc s t) ∧
      (∃ t, exec (.gt a b c) s = .next t ∧
        ((vc.toNat < vb.toNat ∧ RegWritten s t d 1) ∨ (vb.toNat ≤ vc.toNat ∧ RegWritten s t d 0)) ∧
        t.pc = s.pc + 4 ∧ SameButRegsPc s t)

/-! ### Arithmetic and logic (44_arith_logic.md) -/

/-- R101, R102: exact sum or product, reduced modulo 32768. -/
def Obligations.AddMultRules : Prop :=
  ∀ a b c : Operand,
    EncodedAs (.add a b c) [9, a.toWord, b.toWord, c.toWord] ∧ CommonFaults (.add a b c) ∧
    EncodedAs (.mult a b c) [10, a.toWord, b.toWord, c.toWord] ∧ CommonFaults (.mult a b c) ∧
    ∀ (s : State) (d : Fin 8) (vb vc : Value), a = .reg d → s.resolve b = some vb → s.resolve c = some vc →
      (∃ t v, exec (.add a b c) s = .next t ∧ RegWritten s t d v ∧ v.toNat = (vb.toNat + vc.toNat) % 32768 ∧
        t.pc = s.pc + 4 ∧ SameButRegsPc s t) ∧
      (∃ t v, exec (.mult a b c) s = .next t ∧ RegWritten s t d v ∧ v.toNat = (vb.toNat * vc.toNat) % 32768 ∧
        t.pc = s.pc + 4 ∧ SameButRegsPc s t)

/-- R103, R137: the remainder; a divisor of 0 raises `DivideByZero` with the divisor's operand word, the spec's decision
D9 (log 22). -/
def Obligations.ModRule : Prop :=
  ∀ a b c : Operand, EncodedAs (.mod a b c) [11, a.toWord, b.toWord, c.toWord] ∧ CommonFaults (.mod a b c) ∧
    ∀ (s : State) (d : Fin 8) (vb vc : Value), a = .reg d → s.resolve b = some vb → s.resolve c = some vc →
      (vc = 0 → exec (.mod a b c) s = .next (s.record .divideByZero c.toWord)) ∧
      (vc ≠ 0 → ∃ t v q, exec (.mod a b c) s = .next t ∧ RegWritten s t d v ∧
        v.toNat < vc.toNat ∧ vb.toNat = q * vc.toNat + v.toNat ∧ t.pc = s.pc + 4 ∧ SameButRegsPc s t)

/-- R104, R105, R106: bit by bit; the complement is of the 15 bits. -/
def Obligations.BitwiseRules : Prop :=
  ∀ a b c : Operand,
    EncodedAs (.and a b c) [12, a.toWord, b.toWord, c.toWord] ∧ CommonFaults (.and a b c) ∧
    EncodedAs (.or a b c) [13, a.toWord, b.toWord, c.toWord] ∧ CommonFaults (.or a b c) ∧
    EncodedAs (.not a b) [14, a.toWord, b.toWord] ∧ CommonFaults (.not a b) ∧
    ∀ (s : State) (d : Fin 8) (vb : Value), a = .reg d → s.resolve b = some vb →
      (∀ vc, s.resolve c = some vc → ∃ t v, exec (.and a b c) s = .next t ∧ RegWritten s t d v ∧
        (∀ i, i < 15 → v.getLsbD i = (vb.getLsbD i && vc.getLsbD i)) ∧ t.pc = s.pc + 4 ∧ SameButRegsPc s t) ∧
      (∀ vc, s.resolve c = some vc → ∃ t v, exec (.or a b c) s = .next t ∧ RegWritten s t d v ∧
        (∀ i, i < 15 → v.getLsbD i = (vb.getLsbD i || vc.getLsbD i)) ∧ t.pc = s.pc + 4 ∧ SameButRegsPc s t) ∧
      (∃ t v, exec (.not a b) s = .next t ∧ RegWritten s t d v ∧ v.toNat = 32767 - vb.toNat ∧
        t.pc = s.pc + 3 ∧ SameButRegsPc s t)

/-! ### Control transfer (43_control.md) -/

/-- R95. -/
def Obligations.JmpRule : Prop :=
  ∀ a : Operand, EncodedAs (.jmp a) [6, a.toWord] ∧ CommonFaults (.jmp a) ∧
    ∀ (s : State) (v : Value), s.resolve a = some v →
      ∃ t, exec (.jmp a) s = .next t ∧ t.pc.toNat = v.toNat ∧ SameRegs s t ∧ SameButRegsPc s t

/-- R96, R97: opposite conditions; the target word is checked also when the jump is not taken (`CommonFaults`),
the spec's decision D13 (log 21). -/
def Obligations.ConditionalJumpRules : Prop :=
  ∀ a b : Operand,
    EncodedAs (.jt a b) [7, a.toWord, b.toWord] ∧ CommonFaults (.jt a b) ∧
    EncodedAs (.jf a b) [8, a.toWord, b.toWord] ∧ CommonFaults (.jf a b) ∧
    ∀ (s : State) (va vb : Value), s.resolve a = some va → s.resolve b = some vb →
      (∃ t, exec (.jt a b) s = .next t ∧ ((va ≠ 0 ∧ t.pc.toNat = vb.toNat) ∨ (va = 0 ∧ t.pc = s.pc + 3)) ∧
        SameRegs s t ∧ SameButRegsPc s t) ∧
      (∃ t, exec (.jf a b) s = .next t ∧ ((va = 0 ∧ t.pc.toNat = vb.toNat) ∨ (va ≠ 0 ∧ t.pc = s.pc + 3)) ∧
        SameRegs s t ∧ SameButRegsPc s t)

/-- R98: the return address must fit the 15-bit stack cell; the fault is the spec's decision D8 (log 22). -/
def Obligations.CallRule : Prop :=
  ∀ a : Operand, EncodedAs (.call a) [17, a.toWord] ∧ CommonFaults (.call a) ∧
    ∀ (s : State) (v : Value), s.resolve a = some v →
      (s.pc.toNat + 2 ≤ 32767 → ∃ t r, exec (.call a) s = .next t ∧ t.stk = s.stk ++ [r] ∧
        r.toNat = s.pc.toNat + 2 ∧ t.pc.toNat = v.toNat ∧ SameRegs s t ∧ SameMemory s t ∧ SameRest s t) ∧
      (32767 < s.pc.toNat + 2 → exec (.call a) s = .next (s.record .valueRange (s.pc + 2)))

/-- R99, R15, with the source's property that a `ret` right after a `call` returns to just past the `call`. The
unchanged program counter on an empty stack is the spec's decision D15. -/
def Obligations.RetRule : Prop :=
  EncodedAs .ret [18] ∧
    (∀ s : State, s.stk = [] → exec .ret s = .next { s with halt := true }) ∧
    (∀ (s : State) (below : List Value) (v : Value), s.stk = below ++ [v] →
      ∃ t, exec .ret s = .next t ∧ t.pc.toNat = v.toNat ∧ t.stk = below ∧
        SameRegs s t ∧ SameMemory s t ∧ SameRest s t) ∧
    (∀ (s : State) (a : Operand) (v : Value), s.resolve a = some v → s.pc.toNat + 2 ≤ 32767 →
      ∃ t u, exec (.call a) s = .next t ∧ exec .ret t = .next u ∧ u.pc.toNat = s.pc.toNat + 2 ∧ u.stk = s.stk ∧
        SameRegs s u ∧ SameMemory s u ∧ SameRest s u)

/-! ### Memory (20_memory.md, 45_memory_ops.md) -/

/-- R33, R34: `MemRead` has a value exactly below the extent; `MemWrite` writes one cell, moves the extent just past a cell
at or beyond it, and changes nothing else. The bounds and the fill are the spec's decisions D5 and D6. -/
def Obligations.MemoryReadAndWriteRules : Prop :=
  ∀ (s : State) (a : Nat),
    (s.mlen ≤ a → s.memRead a = none) ∧ (a < s.mlen → s.memRead a = some (s.word a)) ∧
    ∀ w : Word,
      (∀ k, (s.memWrite a w).word k = if k = a then w else s.word k) ∧
      (s.memWrite a w).mlen = (if s.mlen ≤ a then a + 1 else s.mlen) ∧
      s.memWrite a w = { s with mem := (s.memWrite a w).mem, mlen := (s.memWrite a w).mlen }

/-- R110, R134, R138: the bounds test comes before the range test; both faults are the spec's decisions, D5 and D7
(log 22). -/
def Obligations.RmemRule : Prop :=
  ∀ a b : Operand, EncodedAs (.rmem a b) [15, a.toWord, b.toWord] ∧ CommonFaults (.rmem a b) ∧
    ∀ (s : State) (d : Fin 8) (ea : Value), a = .reg d → s.resolve b = some ea →
      (s.mlen ≤ ea.toNat → exec (.rmem a b) s = .next (s.record .memoryBounds (BitVec.ofNat 16 ea.toNat))) ∧
      (ea.toNat < s.mlen → 32767 < (s.word ea.toNat).toNat →
        exec (.rmem a b) s = .next (s.record .valueRange (s.word ea.toNat))) ∧
      (ea.toNat < s.mlen → (s.word ea.toNat).toNat ≤ 32767 →
        ∃ t v, exec (.rmem a b) s = .next t ∧ RegWritten s t d v ∧ v.toNat = (s.word ea.toNat).toNat ∧
          t.pc = s.pc + 3 ∧ SameButRegsPc s t)

/-- R111: the address stored to is the resolved first operand; the stored bytes are those of that one word; the skipped
cells keep the 0 they had (D6, log 25). -/
def Obligations.WmemRule : Prop :=
  ∀ a b : Operand, EncodedAs (.wmem a b) [16, a.toWord, b.toWord] ∧ CommonFaults (.wmem a b) ∧
    ∀ (s : State) (ea v : Value), s.resolve a = some ea → s.resolve b = some v →
      ∃ t, exec (.wmem a b) s = .next t ∧ (t.word ea.toNat).toNat = v.toNat ∧
        (∀ k, k ≠ 2 * ea.toNat → k ≠ 2 * ea.toNat + 1 → t.mem.read k = s.mem.read k) ∧
        t.mlen = (if s.mlen ≤ ea.toNat then ea.toNat + 1 else s.mlen) ∧
        t.pc = s.pc + 3 ∧ t.stk = s.stk ∧ SameRegs s t ∧ SameRest s t

/-- R41: a store to the word that is fetched next is what the next step decodes: a stored `noop` runs, a stored unknown
opcode faults. -/
def Obligations.StoreIsSeenByTheNextFetch : Prop :=
  ∀ (s t : State) (a b : Operand) (ea v : Value), s.resolve a = some ea → s.resolve b = some v →
    exec (.wmem a b) s = .next t → t.pc.toNat = ea.toNat → s.fault = .none → s.halt = false →
    (v = 21 → step t = .next { t with pc := t.pc + 1 }) ∧
    (21 < v.toNat → step t = .next (t.record .unknownOpcode (BitVec.ofNat 16 v.toNat)))

/-! ### Ports (46_io.md) -/

/-- R115, with the channel behind the port (R117): every code joins the output sequence; a newline emits the accumulator
as a line and clears it. Which code newline is (R4 `NL`) is left to Config.lean. -/
def Obligations.OutRule : Prop :=
  ∀ a : Operand, EncodedAs (.out a) [19, a.toWord] ∧ CommonFaults (.out a) ∧
    ∀ (s : State) (v : Value), s.resolve a = some v →
      ∃ t, exec (.out a) s = .next t ∧ t.out = s.out ++ [v] ∧
        (v = Config.newline → t.outLines = s.outLines ++ [s.outAcc] ∧ t.outAcc = []) ∧
        (v ≠ Config.newline → t.outLines = s.outLines ∧ t.outAcc = s.outAcc ++ [v]) ∧
        t.pc = s.pc + 2 ∧ t.stk = s.stk ∧ t.inq = s.inq ∧
        SameRegs s t ∧ SameMemory s t ∧ SameRecord s t ∧ SameChannel s t

/-- R116, R20: one character taken and written; without one the core is held in WAIT_IN and nothing changes.
The checks before the wait are the spec's decision D22; that a hold is a step to the same state is the model's (log 10). -/
def Obligations.InTakesOneCharacterOrIsHeld : Prop :=
  ∀ a : Operand, EncodedAs (.in_ a) [20, a.toWord] ∧ CommonFaults (.in_ a) ∧
    (∀ (s : State) (d : Fin 8) (c : Value) (q : List Value), a = .reg d → s.inq = c :: q →
      ∃ t, exec (.in_ a) s = .next t ∧ RegWritten s t d c ∧ t.inq = q ∧ t.pc = s.pc + 2 ∧ t.stk = s.stk ∧
        SameMemory s t ∧ SameRecord s t ∧ SameOutput s t ∧ SameChannel s t) ∧
    (∀ (s : State) (d : Fin 8), a = .reg d → s.inq = [] → CanStep s → WordsAtPc s (encode (.in_ a)) →
      exec (.in_ a) s = .next s ∧ s.status = .waitIn)

/-- R118, R119: a line typed to a waiting core that is not reserved is archived and delivered whole, with its newline, and
the program state is untouched. The line is the accumulator and the characters typed now. One host move or dispatch a
step is the model's choice (log 9, log 11). -/
def Obligations.TypedLineIsArchivedAndDelivered : Prop :=
  ∀ (s : State) (line : Line) (moves : List HostMove), s.status = .waitIn → s.chan = .collecting →
    Config.newline ∉ line → s.host = line.map .key ++ .key Config.newline :: moves →
    isReserved (s.inAcc ++ line) = false →
    Host.Core.run core (line.length + 2) s = .next
      { s with
        inAcc := [], history := s.history ++ [s.inAcc ++ line], inq := s.inAcc ++ line ++ [Config.newline], host := moves }

/-- R118, R146 to R150: a reserved line is archived, delivers nothing, and performs its debug port operation, if any, on
the waiting core, whose program counter still points at its instruction; the channel is COLLECTING again. After a memory
write the core is not stopped: it fetches anew (the spec's decision D23, log 15, log 19). Recognising and reading lines is
the model's choice where the spec is open (log 13, log 14), and so is one host move or dispatch a step (log 9, log 11). -/
def Obligations.ReservedLineDrivesTheDebugPort : Prop :=
  ∀ (s : State) (line : Line) (moves : List HostMove), s.status = .waitIn → s.chan = .collecting →
    Config.newline ∉ line → s.host = line.map .key ++ .key Config.newline :: moves →
    isReserved (s.inAcc ++ line) = true →
    ∃ t, Host.Core.run core (line.length + 2) s = .next t ∧
      t.inq = [] ∧ t.inAcc = [] ∧ t.history = s.history ++ [s.inAcc ++ line] ∧ t.host = moves ∧
      t.chan = .collecting ∧ t.pc = s.pc ∧ t.stk = s.stk ∧ t.fault = .none ∧ t.finfo = s.finfo ∧ SameOutput s t ∧
      (commandOp (s.inAcc ++ line) = none → SameRegs s t ∧ SameMemory s t ∧ t.status = .waitIn) ∧
      (commandOp (s.inAcc ++ line) = some .halt → SameRegs s t ∧ SameMemory s t ∧ t.status = .halted) ∧
      (∀ r v, commandOp (s.inAcc ++ line) = some (.writeReg r v) →
        RegWritten s t r v ∧ SameMemory s t ∧ t.status = .waitIn) ∧
      (∀ q, commandOp (s.inAcc ++ line) = some (.read q) → SameRegs s t ∧ SameMemory s t ∧ t.status = .waitIn) ∧
      (∀ a ws, commandOp (s.inAcc ++ line) = some (.writeMem a ws) → SameRegs s t ∧ WordsStored s t a ws ∧ CanStep t)

/-! ### System instructions (47_system.md) -/

/-- R120, R121. -/
def Obligations.HaltNoopRules : Prop :=
  EncodedAs .halt [0] ∧ EncodedAs .noop [21] ∧
    ∀ s : State,
      (∃ t, exec .halt s = .next t ∧ t.halt = true ∧ t.pc = s.pc ∧ t.fault = s.fault ∧ t.finfo = s.finfo ∧
        t.stk = s.stk ∧ t.inq = s.inq ∧ SameRegs s t ∧ SameMemory s t ∧ SameOutput s t ∧ SameChannel s t ∧
        (s.fault = .none → t.status = .halted)) ∧
      (∃ t, exec .noop s = .next t ∧ t.pc = s.pc + 1 ∧ SameRegs s t ∧ SameButRegsPc s t)

/-! ### Faults (60_exceptions.md) -/

/-- R131, R132: what raising a fault writes, and the codes: the spec's decisions D11 and D17 (log 24). -/
def Obligations.RaisingAFaultWritesOnlyItsRecord : Prop :=
  (∀ (c : FaultCode) (info : Word) (s : State), c ≠ .none →
    ∃ t, raiseFault c info s = .next t ∧ t.fault = c ∧ t.finfo = info ∧ t.halt = s.halt ∧ t.pc = s.pc ∧
      t.stk = s.stk ∧ t.inq = s.inq ∧ SameRegs s t ∧ SameMemory s t ∧ SameOutput s t ∧ SameChannel s t ∧
      t.status = .faulted) ∧
  FaultCode.none.code = 0 ∧ FaultCode.unknownOpcode.code = 1 ∧ FaultCode.memoryBounds.code = 2 ∧
  FaultCode.invalidDestination.code = 3 ∧ FaultCode.illegalOperand.code = 4 ∧ FaultCode.divideByZero.code = 5 ∧
  FaultCode.valueRange.code = 6

/-- R77, R131: faults are precise. Whatever a step does, if it records a fault it has done nothing else: the spec's
decision D11. That the fault is a next state is the model's choice (log 6). -/
def Obligations.FaultsArePrecise : Prop :=
  ∀ s t : State, step s = .next t → s.fault = .none → t.fault ≠ .none → t = s.record t.fault t.finfo

/-- R18, R19, R142: nothing clears the halt flag or a recorded fault but a load, which is a move of the host (log 8). -/
def Obligations.OnlyALoadClearsHaltAndFault : Prop :=
  ∀ s t : State, step s = .next t → (∀ img ps moves, s.host ≠ .load img ps :: moves) →
    (s.halt = true → t.halt = true) ∧ (s.fault ≠ .none → t.fault = s.fault ∧ t.finfo = s.finfo)

/-- R20, R130, R132: the fault record is always one the table allows, and a faulted core is not halted as well: from every
state that meets the invariants, one step leads to a state that meets this one. -/
def Obligations.StepKeepsFaultRecordInvariant : Prop :=
  ∀ s t : State, CoreInv s → RecordInv s → step s = .next t → RecordInv t

/-! ### Promises about the whole instruction set (10_state.md) -/

/-- R11: only an instruction with a destination writes a register, and only the one its destination names. -/
def Obligations.OnlyTheDestinationRegisterChanges : Prop :=
  ∀ (i : Instr) (s t : State), exec i s = .next t → ∀ r, t.reg r ≠ s.reg r → i.dst? = some (.reg r)

/-- R31, R16: only `wmem` writes memory, one word, and moves the extent. -/
def Obligations.OnlyWmemWritesMemory : Prop :=
  ∀ (i : Instr) (s t : State), exec i s = .next t →
    ((∀ a b, i ≠ .wmem a b) → SameMemory s t) ∧
    (∀ a b ea, i = .wmem a b → s.resolve a = some ea → ∀ k, k ≠ ea.toNat → t.word k = s.word k)

/-- R14: only `push` and `call` append to the stack, one cell; only `pop` and `ret` remove from it, the last cell. -/
def Obligations.StackMovesByOneCellOnly : Prop :=
  ∀ (i : Instr) (s t : State), exec i s = .next t → t.stk ≠ s.stk →
    (((∃ a, i = .push a) ∨ (∃ a, i = .call a)) ∧ ∃ v, t.stk = s.stk ++ [v]) ∨
    (((∃ a, i = .pop a) ∨ i = .ret) ∧ ∃ v, s.stk = t.stk ++ [v])

/-- R15, R18, R130: which instructions set the halt flag, when, and with what else. -/
def Obligations.HaltFlagIsSetOnlyByTheseThree : Prop :=
  ∀ (i : Instr) (s t : State), exec i s = .next t → s.halt = false → t.halt = true →
    (i = .halt ∨ (s.stk = [] ∧ (i = .ret ∨ ∃ d, i = .pop (.reg d)))) ∧ t = { s with halt := true }

/-- R17: without a load, which is a move of the host (log 8), the extent never shrinks. -/
def Obligations.ExtentNeverShrinks : Prop :=
  ∀ s t : State, step s = .next t → (∀ img ps moves, s.host ≠ .load img ps :: moves) → s.mlen ≤ t.mlen

/-- R13, R78: the program counter after an instruction that neither transfers control, halts, faults nor is held is just
past the instruction. -/
def Obligations.PcAdvancesPastTheInstruction : Prop :=
  ∀ (i : Instr) (s t : State), exec i s = .next t → t.fault = s.fault → t.halt = s.halt → t ≠ s →
    (∀ a, i ≠ .jmp a) → (∀ a b, i ≠ .jt a b) → (∀ a b, i ≠ .jf a b) → (∀ a, i ≠ .call a) → i ≠ .ret →
    s.fault = .none → s.halt = false → t.pc = s.pc + BitVec.ofNat 16 (encode i).length

/-- R81, R171: pending input characters reach a program through `in` alone; any other instruction does the same whatever is
pending, whatever the channel holds and whatever the host has planned (its plans as a field: log 8). -/
def Obligations.InputReachesProgramsThroughInAlone : Prop :=
  ∀ (i : Instr) (s : State) (q acc : List Value) (hist : List Line) (ch : ChannelState) (moves : List HostMove),
    (∀ a, i ≠ .in_ a) →
    let change (u : State) : State := { u with inq := q, inAcc := acc, history := hist, chan := ch, host := moves }
    exec i (change s) = mapNext change (exec i s)

/-- R152: the host does nothing to a running core: a step of it is the same whatever the host has planned. That its plans
are a field of the state is the model's choice (log 8). -/
def Obligations.HostCannotTouchARunningCore : Prop :=
  ∀ (s : State) (moves : List HostMove), s.status = .running →
    step { s with host := moves } = mapNext (fun t => { t with host := moves }) (step s)

/-! ### Debug port (60_exceptions.md) -/

/-- R147, R148, R149: the operations on a waiting core. A read changes nothing, debug halt only sets the flag, a register
write only that register, a memory write only the words named, growing the extent and dropping words beyond address
32767 (the spec's decision D23, log 19). That a move of the host acts on the port directly with the channel attached, and
then leaves the input accumulator, the history and the pending characters alone, is the model's choice (log 31), and so is
one move a step (log 9). -/
def Obligations.DebugOperationsOnAWaitingCore : Prop :=
  ∀ (s : State) (op : DebugOp) (moves : List HostMove), s.status = .waitIn → s.chan = .collecting →
    s.host = .debug op :: moves →
    ∃ t, step s = .next t ∧ t.host = moves ∧ t.pc = s.pc ∧ t.stk = s.stk ∧ t.inq = s.inq ∧ t.fault = s.fault ∧
      t.finfo = s.finfo ∧ SameOutput s t ∧ t.inAcc = s.inAcc ∧ t.history = s.history ∧ t.chan = s.chan ∧
      (∀ q, op = .read q → SameRegs s t ∧ SameMemory s t ∧ t.halt = s.halt) ∧
      (op = .halt → SameRegs s t ∧ SameMemory s t ∧ t.halt = true ∧ t.status = .halted) ∧
      (∀ r v, op = .writeReg r v → RegWritten s t r v ∧ SameMemory s t ∧ t.halt = s.halt) ∧
      (∀ a ws, op = .writeMem a ws → SameRegs s t ∧ t.halt = s.halt ∧ WordsStored s t a ws)

/-- R147: what each read of the port returns, and that the host may read a stopped core without changing it. That a read is
a function of the state and its move a step that only takes the move off is the model's choice (log 9, log 28). -/
def Obligations.DebugReadsReportTheState : Prop :=
  ∀ s : State,
    (∀ a, a < s.mlen → debugRead (.memory a) s = .word (s.word a)) ∧
    (∀ a, s.mlen ≤ a → debugRead (.memory a) s = .outOfRange) ∧
    debugRead .pc s = .word s.pc ∧
    (∃ x, debugRead .registers s = .registers x ∧ ∀ r : Fin 8, x[r] = s.reg r) ∧
    debugRead .stack s = .stack s.stk ∧ debugRead .mlen s = .extent s.mlen ∧ debugRead .halt s = .flag s.halt ∧
    debugRead .fault s = .fault s.fault ∧ debugRead .finfo s = .word s.finfo ∧
    (∃ ws, debugRead .image s = .image ws ∧ ws.length = s.mlen ∧ ∀ k (h : k < ws.length), ws[k] = s.word k) ∧
    (∀ q moves, ¬ CanStep s → s.host = .debug (.read q) :: moves → step s = .next { s with host := moves })

/-- R118, R147 to R149, R151, and S9 of 95_test_vectors.md: lines of the debug command processor and the port operations
they perform. All eleven commands are reserved; arguments are base 16; `!setreg 8 0`, `!setreg 3 8000` and `!poke 8000 1`
are out of range, `!setreg 3` and `!poke 10` lack an argument. That `!peek` names no operation is the model's choice
(log 28), as are the character codes (log 12). -/
def Obligations.CommandLinesNameTheirOperation : Prop :=
  commandOp cmdHalt = some .halt ∧ commandOp cmdKill = some .halt ∧
  commandOp (cmdSetreg ++ [32, 51, 32, 48, 48, 50, 65]) = some (.writeReg 3 42) ∧
  commandOp (cmdPoke ++ [32, 49, 48, 32, 49, 32, 66, 32, 70, 70, 70, 70]) = some (.writeMem 16 [1, 11, 65535]) ∧
  commandOp cmdPos = some (.read .pc) ∧ commandOp cmdGetreg = some (.read .registers) ∧
  commandOp cmdGetstack = some (.read .stack) ∧ commandOp cmdDump = some (.read .image) ∧
  commandOp cmdHelp = none ∧ commandOp cmdHistory = none ∧ commandOp (cmdPeek ++ [32, 49, 48, 32, 51]) = none ∧
  commandOp (cmdSetreg ++ [32, 56, 32, 48]) = none ∧ commandOp (cmdSetreg ++ [32, 51, 32, 56, 48, 48, 48]) = none ∧
  commandOp (cmdPoke ++ [32, 56, 48, 48, 48, 32, 49]) = none ∧
  commandOp (cmdSetreg ++ [32, 51]) = none ∧ commandOp (cmdPoke ++ [32, 49, 48]) = none ∧
  (∀ cmd ∈ reservedCommands, isReserved cmd = true) ∧ reservedCommands.length = 11

/-! ### Reset and image (20_memory.md, 70_reset_and_hazards.md) -/

/-- R35, R36: image words are little-endian, an odd last byte is dropped, and the dump has the same encoding. -/
def Obligations.ImageIsLittleEndianWords : Prop :=
  (∀ f : List Byte, (wordsOfBytes f).length = f.length / 2 ∧
    ∀ k (h : k < (wordsOfBytes f).length) (h0 : 2 * k < f.length) (h1 : 2 * k + 1 < f.length),
      (wordsOfBytes f)[k].toNat = f[2 * k].toNat + 256 * f[2 * k + 1].toNat) ∧
  ∀ ws : List Word, (bytesOfWords ws).length = 2 * ws.length ∧ wordsOfBytes (bytesOfWords ws) = ws

/-- R160, R161: a load resets everything and places the image from address 0. The register value 0, the zero fill and the
fault record are the spec's decisions D18, D4 and D17 (log 3, log 5, log 24), when the host may load is its decision D20
(log 30); that the load is a move of the host and one step is the model's choice (log 8, log 9). -/
def Obligations.LoadResetsAllState : Prop :=
  ∀ (s : State) (img : List Word) (moves : List HostMove), HostMayLoad s → s.host = .load img [] :: moves →
    img.length ≤ 32768 →
    ∃ t, step s = .next t ∧ (∀ r, t.reg r = 0) ∧ t.pc = 0 ∧ t.stk = [] ∧ t.halt = false ∧ t.fault = .none ∧
      t.finfo = 0 ∧ (∀ k (h : k < img.length), t.word k = img[k]) ∧ (∀ k, img.length ≤ k → t.word k = 0) ∧
      t.mlen = img.length ∧ t.outAcc = [] ∧ t.inAcc = [] ∧ t.history = [] ∧ t.inq = [] ∧ t.host = moves

/-- R152, R162, R164: presets, any number of them, write their registers after the load, the last one for a register
counting, and change nothing else of what the load leaves; an image that does not fit is refused (D19, log 16); the empty
image leaves the core run off. That the presets belong to the one step of the load is the model's choice (log 9). -/
def Obligations.LoadPresetsAndRefusals : Prop :=
  ∀ (s : State) (img : List Word) (moves : List HostMove), HostMayLoad s →
    (∀ ps, s.host = .load img ps :: moves → img.length ≤ 32768 →
      ∃ t, step s = .next t ∧
        (∀ r, (∀ p ∈ ps, p.1 ≠ r) → t.reg r = 0) ∧
        (∀ before r v after, ps = before ++ (r, v) :: after → (∀ p ∈ after, p.1 ≠ r) → t.reg r = v) ∧
        t = { State.loaded img moves with regs := t.regs } ∧ t.pc = 0 ∧ t.mlen = img.length) ∧
    (∀ ps, s.host = .load img ps :: moves → 32768 < img.length → step s = .refused .imageTooLong) ∧
    (∀ ps, s.host = .load [] ps :: moves → ∃ t, step s = .next t ∧ t.status = .ranOff)

/-- R172, which the spec marks as derived: a dump loaded again restores memory contents and extent and nothing else. -/
def Obligations.DumpLoadedAgainRestoresMemoryOnly : Prop :=
  ∀ (s : State) (moves : List HostMove), CoreInv s →
    let t := State.loaded s.dumpWords moves
    (∀ k, t.word k = s.word k) ∧ t.mlen = s.mlen ∧ t.mem = s.mem ∧
      (∀ r, t.reg r = 0) ∧ t.stk = [] ∧ t.pc = 0 ∧ t.halt = false ∧ t.fault = .none ∧ t.finfo = 0

/-! ### Invariants -/

/-- The reset state meets the invariants below. -/
def Obligations.ResetMeetsTheInvariants : Prop :=
  CoreInv State.reset ∧ RecordInv State.reset ∧ ChannelInv State.reset

/-- R12, R16, R17: memory stays in its canonical form, cells at and above the extent hold 0, the extent stays within 32768
and the program counter within 0..32768: from every such state, one step leads to such a state. -/
def Obligations.StepKeepsCoreInvariant : Prop :=
  ∀ s t : State, CoreInv s → step s = .next t → CoreInv t

/-- R117, R118, R146: the emitted lines stay a function of the output codes, accumulator and history hold no newline, and
the channel interprets a line only while the core waits: from every such state, one step leads to such a state. That the
channel's state is stored and a dispatch is a step is the model's choice (log 11). -/
def Obligations.StepKeepsChannelInvariant : Prop :=
  ∀ s t : State, ChannelInv s → step s = .next t → ChannelInv t
end

