-- ==== Sys2Proof/Laws/Decode.lean ====
section
/-! SUPPORT. The laws of operand words, of byte order and of the formats of decoding (30_encoding.md R50, R53; 20_memory.md
R35, R36). -/

namespace Sys2Proof

/-! ### Operand words -/

@[simp] theorem Operand.toNat_toWord_lit (v : Value) : (Operand.lit v).toWord.toNat = v.toNat := by
  have := v.isLt
  simp only [Operand.toWord, BitVec.toNat_ofNat]; omega

@[simp] theorem Operand.toNat_toWord_reg (r : Fin 8) : (Operand.reg r).toWord.toNat = 32768 + r.val := by
  have := r.isLt
  simp only [Operand.toWord, BitVec.toNat_ofNat]; omega

@[simp] theorem Operand.toNat_toWord_illegal (k : Fin 32760) : (Operand.illegal k).toWord.toNat = 32776 + k.val := by
  have := k.isLt
  simp only [Operand.toWord, BitVec.toNat_ofNat]; omega

/-- The class of an operand's word is the operand. -/
@[simp] theorem Operand.ofWord_toWord (a : Operand) : Operand.ofWord a.toWord = a := by
  cases a with
  | lit v =>
    have h := v.isLt
    have e := Operand.toNat_toWord_lit v
    unfold Operand.ofWord
    simp only [e]
    rw [dif_pos (by omega)]
    simp
  | reg r =>
    have h := r.isLt
    have e := Operand.toNat_toWord_reg r
    unfold Operand.ofWord
    simp only [e]
    rw [dif_neg (by omega), dif_pos (by omega)]
    simp
  | illegal k =>
    have h := k.isLt
    have e := Operand.toNat_toWord_illegal k
    unfold Operand.ofWord
    simp only [e]
    rw [dif_neg (by omega), dif_neg (by omega)]
    simp

/-- The word of a word's class is the word. -/
@[simp] theorem Operand.toWord_ofWord (w : Word) : (Operand.ofWord w).toWord = w := by
  have h := w.isLt
  apply BitVec.eq_of_toNat_eq
  unfold Operand.ofWord
  split
  · simp only [Operand.toNat_toWord_lit, BitVec.toNat_ofNat]; omega
  · split
    · simp only [Operand.toNat_toWord_reg]; omega
    · simp only [Operand.toNat_toWord_illegal]; omega

/-- `IsReg` on words (R55). -/
theorem Operand.isReg_iff (a : Operand) : a.isReg = true ↔ 32768 ≤ a.toWord.toNat ∧ a.toWord.toNat ≤ 32775 := by
  cases a with
  | lit v => have := v.isLt; simp [Operand.isReg]; omega
  | reg r => have := r.isLt; simp [Operand.isReg]; omega
  | illegal k => simp [Operand.isReg]; omega

/-- A legal source is a word up to 32775 (R54). -/
theorem Operand.isSource_iff (a : Operand) : a.isSource = true ↔ a.toWord.toNat ≤ 32775 := by
  cases a with
  | lit v => have := v.isLt; simp [Operand.isSource]; omega
  | reg r => have := r.isLt; simp [Operand.isSource]; omega
  | illegal k => simp [Operand.isSource]; omega

/-! ### Byte order -/

/-- The words of a word sequence's bytes are the sequence; bytes that follow begin the next words. -/
theorem wordsOfBytes_bytesOfWords (ws : List Word) (bs : List Byte) :
    wordsOfBytes (bytesOfWords ws ++ bs) = ws ++ wordsOfBytes bs := by
  induction ws with
  | nil => rfl
  | cons w ws ih =>
    simp only [bytesOfWords, List.cons_append, wordsOfBytes, ih]
    congr 1
    apply BitVec.eq_of_getLsbD_eq
    intro i hi
    simp only [BitVec.getLsbD_append, BitVec.getLsbD_extractLsb']
    by_cases h : i < 8
    · simp [h]
    · have : i - 8 < 8 := by omega
      have e : 8 + (i - 8) = i := by omega
      simp [h, this, e]

/-! ### Formats -/

@[simp] theorem decodeA_cons (f : Operand → Instr) (w1 : Word) (rest : List Word) :
    decodeA f (w1 :: rest) = .ok (f (.ofWord w1)) rest := rfl

@[simp] theorem decodeAB_cons (f : Operand → Operand → Instr) (w1 w2 : Word) (rest : List Word) :
    decodeAB f (w1 :: w2 :: rest) = .ok (f (.ofWord w1) (.ofWord w2)) rest := rfl

@[simp] theorem decodeABC_cons (f : Operand → Operand → Operand → Instr) (w1 w2 w3 : Word) (rest : List Word) :
    decodeABC f (w1 :: w2 :: w3 :: rest) = .ok (f (.ofWord w1) (.ofWord w2) (.ofWord w3)) rest := rfl

/-- What decoding format `A` can give. -/
theorem decodeA_cases (f : Operand → Instr) (ws : List Word) :
    (ws = [] ∧ decodeA f ws = .truncated 1) ∨
    ∃ w1 rest, ws = w1 :: rest ∧ decodeA f ws = .ok (f (.ofWord w1)) rest := by
  rcases ws with _ | ⟨w1, rest⟩
  · exact .inl ⟨rfl, rfl⟩
  · exact .inr ⟨w1, rest, rfl, rfl⟩

/-- What decoding format `AB` can give. -/
theorem decodeAB_cases (f : Operand → Operand → Instr) (ws : List Word) :
    (ws.length < 2 ∧ decodeAB f ws = .truncated (1 + ws.length)) ∨
    ∃ w1 w2 rest, ws = w1 :: w2 :: rest ∧ decodeAB f ws = .ok (f (.ofWord w1) (.ofWord w2)) rest := by
  rcases ws with _ | ⟨w1, _ | ⟨w2, rest⟩⟩
  · exact .inl ⟨by simp, rfl⟩
  · exact .inl ⟨by simp, rfl⟩
  · exact .inr ⟨w1, w2, rest, rfl, rfl⟩

/-- What decoding format `ABC` can give. -/
theorem decodeABC_cases (f : Operand → Operand → Operand → Instr) (ws : List Word) :
    (ws.length < 3 ∧ decodeABC f ws = .truncated (1 + ws.length)) ∨
    ∃ w1 w2 w3 rest, ws = w1 :: w2 :: w3 :: rest ∧
      decodeABC f ws = .ok (f (.ofWord w1) (.ofWord w2) (.ofWord w3)) rest := by
  rcases ws with _ | ⟨w1, _ | ⟨w2, _ | ⟨w3, rest⟩⟩⟩
  · exact .inl ⟨by simp, rfl⟩
  · exact .inl ⟨by simp, rfl⟩
  · exact .inl ⟨by simp, rfl⟩
  · exact .inr ⟨w1, w2, w3, rest, rfl, rfl⟩

/-- A truncated decoding says how many words there are. -/
theorem decodeWords_truncated {ws : List Word} {k : Nat} (h : decodeWords ws = .truncated k) :
    k = ws.length ∧ k < 4 := by
  rcases ws with _ | ⟨w0, ws⟩
  · simp [decodeWords] at h; simp [← h]
  · have a := decodeA_cases (ws := ws)
    have ab := decodeAB_cases (ws := ws)
    have abc := decodeABC_cases (ws := ws)
    simp only [decodeWords] at h
    have fa : ∀ {f}, decodeA f ws = .truncated k → k = (w0 :: ws).length ∧ k < 4 := fun {f} h => by
      rcases a f with ⟨rfl, e⟩ | ⟨_, _, _, e⟩ <;> rw [e] at h
      · injection h with h; subst h; simp
      · cases h
    have fab : ∀ {f}, decodeAB f ws = .truncated k → k = (w0 :: ws).length ∧ k < 4 := fun {f} h => by
      rcases ab f with ⟨hl, e⟩ | ⟨_, _, _, _, e⟩ <;> rw [e] at h
      · injection h with h; subst h; simp only [List.length_cons]; omega
      · cases h
    have fabc : ∀ {f}, decodeABC f ws = .truncated k → k = (w0 :: ws).length ∧ k < 4 := fun {f} h => by
      rcases abc f with ⟨hl, e⟩ | ⟨_, _, _, _, _, e⟩ <;> rw [e] at h
      · injection h with h; subst h; simp only [List.length_cons]; omega
      · cases h
    split at h <;> first | exact fa h | exact fab h | exact fabc h | cases h

/-- An opcode word up to 21 is never unknown (R56). -/
theorem decodeWords_known {w0 : Word} (h21 : w0.toNat ≤ 21) (ws : List Word) (w : Word) :
    decodeWords (w0 :: ws) ≠ .unknownOpcode w := by
  have fa : ∀ {f}, decodeA f ws ≠ .unknownOpcode w := fun {f} h => by
    rcases decodeA_cases f ws with ⟨_, e⟩ | ⟨_, _, _, e⟩ <;> rw [e] at h <;> cases h
  have fab : ∀ {f}, decodeAB f ws ≠ .unknownOpcode w := fun {f} h => by
    rcases decodeAB_cases f ws with ⟨_, e⟩ | ⟨_, _, _, _, e⟩ <;> rw [e] at h <;> cases h
  have fabc : ∀ {f}, decodeABC f ws ≠ .unknownOpcode w := fun {f} h => by
    rcases decodeABC_cases f ws with ⟨_, e⟩ | ⟨_, _, _, _, _, e⟩ <;> rw [e] at h <;> cases h
  simp only [decodeWords]
  generalize w0.toNat = n at h21 ⊢
  interval_cases n <;> first | exact fa | exact fab | exact fabc | (intro h; cases h)

/-- Every opcode word above 21 is unknown (R57). -/
theorem decodeWords_above {w0 : Word} (h : 21 < w0.toNat) (ws : List Word) :
    decodeWords (w0 :: ws) = .unknownOpcode w0 := by
  simp only [decodeWords]
  split <;> first | omega | rfl

/-- An opcode word that decodes to no instruction is above 21, and is the first word (R57). -/
theorem decodeWords_unknown {ws : List Word} {w : Word} (h : decodeWords ws = .unknownOpcode w) :
    21 < w.toNat ∧ ws.head? = some w := by
  rcases ws with _ | ⟨w0, ws⟩
  · simp [decodeWords] at h
  · rcases Nat.lt_or_ge 21 w0.toNat with hw | hw
    · rw [decodeWords_above hw] at h
      cases h
      exact ⟨hw, rfl⟩
    · exact absurd h (decodeWords_known hw ws w)

end Sys2Proof
end

