-- ==== Sys2Proof/Laws/State.lean ====
section
/-! SUPPORT. One lemma per field per update of `State`, so that no proof unfolds a record update; and the register laws. -/

namespace Sys2Proof.Machine

variable (s : State)

/-! ### `setReg` -/

@[simp] theorem State.setReg_regs (r : Fin 8) (v : Value) : (s.setReg r v).regs = s.regs.set r v := rfl
@[simp] theorem State.setReg_pc (r : Fin 8) (v : Value) : (s.setReg r v).pc = s.pc := rfl
@[simp] theorem State.setReg_stk (r : Fin 8) (v : Value) : (s.setReg r v).stk = s.stk := rfl
@[simp] theorem State.setReg_mem (r : Fin 8) (v : Value) : (s.setReg r v).mem = s.mem := rfl
@[simp] theorem State.setReg_mlen (r : Fin 8) (v : Value) : (s.setReg r v).mlen = s.mlen := rfl
@[simp] theorem State.setReg_halt (r : Fin 8) (v : Value) : (s.setReg r v).halt = s.halt := rfl
@[simp] theorem State.setReg_fault (r : Fin 8) (v : Value) : (s.setReg r v).fault = s.fault := rfl
@[simp] theorem State.setReg_finfo (r : Fin 8) (v : Value) : (s.setReg r v).finfo = s.finfo := rfl
@[simp] theorem State.setReg_out (r : Fin 8) (v : Value) : (s.setReg r v).out = s.out := rfl
@[simp] theorem State.setReg_outAcc (r : Fin 8) (v : Value) : (s.setReg r v).outAcc = s.outAcc := rfl
@[simp] theorem State.setReg_outLines (r : Fin 8) (v : Value) : (s.setReg r v).outLines = s.outLines := rfl
@[simp] theorem State.setReg_inAcc (r : Fin 8) (v : Value) : (s.setReg r v).inAcc = s.inAcc := rfl
@[simp] theorem State.setReg_history (r : Fin 8) (v : Value) : (s.setReg r v).history = s.history := rfl
@[simp] theorem State.setReg_chan (r : Fin 8) (v : Value) : (s.setReg r v).chan = s.chan := rfl
@[simp] theorem State.setReg_inq (r : Fin 8) (v : Value) : (s.setReg r v).inq = s.inq := rfl
@[simp] theorem State.setReg_host (r : Fin 8) (v : Value) : (s.setReg r v).host = s.host := rfl

/-! ### `setPc` -/

@[simp] theorem State.setPc_regs (t : Word) : (s.setPc t).regs = s.regs := rfl
@[simp] theorem State.setPc_pc (t : Word) : (s.setPc t).pc = t := rfl
@[simp] theorem State.setPc_stk (t : Word) : (s.setPc t).stk = s.stk := rfl
@[simp] theorem State.setPc_mem (t : Word) : (s.setPc t).mem = s.mem := rfl
@[simp] theorem State.setPc_mlen (t : Word) : (s.setPc t).mlen = s.mlen := rfl
@[simp] theorem State.setPc_halt (t : Word) : (s.setPc t).halt = s.halt := rfl
@[simp] theorem State.setPc_fault (t : Word) : (s.setPc t).fault = s.fault := rfl
@[simp] theorem State.setPc_finfo (t : Word) : (s.setPc t).finfo = s.finfo := rfl
@[simp] theorem State.setPc_out (t : Word) : (s.setPc t).out = s.out := rfl
@[simp] theorem State.setPc_outAcc (t : Word) : (s.setPc t).outAcc = s.outAcc := rfl
@[simp] theorem State.setPc_outLines (t : Word) : (s.setPc t).outLines = s.outLines := rfl
@[simp] theorem State.setPc_inAcc (t : Word) : (s.setPc t).inAcc = s.inAcc := rfl
@[simp] theorem State.setPc_history (t : Word) : (s.setPc t).history = s.history := rfl
@[simp] theorem State.setPc_chan (t : Word) : (s.setPc t).chan = s.chan := rfl
@[simp] theorem State.setPc_inq (t : Word) : (s.setPc t).inq = s.inq := rfl
@[simp] theorem State.setPc_host (t : Word) : (s.setPc t).host = s.host := rfl

/-! ### `advance` -/

@[simp] theorem State.advance_regs (n : Nat) : (s.advance n).regs = s.regs := rfl
@[simp] theorem State.advance_pc (n : Nat) : (s.advance n).pc = s.pc + BitVec.ofNat 16 n := rfl
@[simp] theorem State.advance_stk (n : Nat) : (s.advance n).stk = s.stk := rfl
@[simp] theorem State.advance_mem (n : Nat) : (s.advance n).mem = s.mem := rfl
@[simp] theorem State.advance_mlen (n : Nat) : (s.advance n).mlen = s.mlen := rfl
@[simp] theorem State.advance_halt (n : Nat) : (s.advance n).halt = s.halt := rfl
@[simp] theorem State.advance_fault (n : Nat) : (s.advance n).fault = s.fault := rfl
@[simp] theorem State.advance_finfo (n : Nat) : (s.advance n).finfo = s.finfo := rfl
@[simp] theorem State.advance_out (n : Nat) : (s.advance n).out = s.out := rfl
@[simp] theorem State.advance_outAcc (n : Nat) : (s.advance n).outAcc = s.outAcc := rfl
@[simp] theorem State.advance_outLines (n : Nat) : (s.advance n).outLines = s.outLines := rfl
@[simp] theorem State.advance_inAcc (n : Nat) : (s.advance n).inAcc = s.inAcc := rfl
@[simp] theorem State.advance_history (n : Nat) : (s.advance n).history = s.history := rfl
@[simp] theorem State.advance_chan (n : Nat) : (s.advance n).chan = s.chan := rfl
@[simp] theorem State.advance_inq (n : Nat) : (s.advance n).inq = s.inq := rfl
@[simp] theorem State.advance_host (n : Nat) : (s.advance n).host = s.host := rfl

/-! ### `push` -/

@[simp] theorem State.push_regs (v : Value) : (s.push v).regs = s.regs := rfl
@[simp] theorem State.push_pc (v : Value) : (s.push v).pc = s.pc := rfl
@[simp] theorem State.push_stk (v : Value) : (s.push v).stk = s.stk ++ [v] := rfl
@[simp] theorem State.push_mem (v : Value) : (s.push v).mem = s.mem := rfl
@[simp] theorem State.push_mlen (v : Value) : (s.push v).mlen = s.mlen := rfl
@[simp] theorem State.push_halt (v : Value) : (s.push v).halt = s.halt := rfl
@[simp] theorem State.push_fault (v : Value) : (s.push v).fault = s.fault := rfl
@[simp] theorem State.push_finfo (v : Value) : (s.push v).finfo = s.finfo := rfl
@[simp] theorem State.push_out (v : Value) : (s.push v).out = s.out := rfl
@[simp] theorem State.push_outAcc (v : Value) : (s.push v).outAcc = s.outAcc := rfl
@[simp] theorem State.push_outLines (v : Value) : (s.push v).outLines = s.outLines := rfl
@[simp] theorem State.push_inAcc (v : Value) : (s.push v).inAcc = s.inAcc := rfl
@[simp] theorem State.push_history (v : Value) : (s.push v).history = s.history := rfl
@[simp] theorem State.push_chan (v : Value) : (s.push v).chan = s.chan := rfl
@[simp] theorem State.push_inq (v : Value) : (s.push v).inq = s.inq := rfl
@[simp] theorem State.push_host (v : Value) : (s.push v).host = s.host := rfl

/-! ### `dropTop` -/

@[simp] theorem State.dropTop_regs : s.dropTop.regs = s.regs := rfl
@[simp] theorem State.dropTop_pc : s.dropTop.pc = s.pc := rfl
@[simp] theorem State.dropTop_stk : s.dropTop.stk = s.stk.dropLast := rfl
@[simp] theorem State.dropTop_mem : s.dropTop.mem = s.mem := rfl
@[simp] theorem State.dropTop_mlen : s.dropTop.mlen = s.mlen := rfl
@[simp] theorem State.dropTop_halt : s.dropTop.halt = s.halt := rfl
@[simp] theorem State.dropTop_fault : s.dropTop.fault = s.fault := rfl
@[simp] theorem State.dropTop_finfo : s.dropTop.finfo = s.finfo := rfl
@[simp] theorem State.dropTop_out : s.dropTop.out = s.out := rfl
@[simp] theorem State.dropTop_outAcc : s.dropTop.outAcc = s.outAcc := rfl
@[simp] theorem State.dropTop_outLines : s.dropTop.outLines = s.outLines := rfl
@[simp] theorem State.dropTop_inAcc : s.dropTop.inAcc = s.inAcc := rfl
@[simp] theorem State.dropTop_history : s.dropTop.history = s.history := rfl
@[simp] theorem State.dropTop_chan : s.dropTop.chan = s.chan := rfl
@[simp] theorem State.dropTop_inq : s.dropTop.inq = s.inq := rfl
@[simp] theorem State.dropTop_host : s.dropTop.host = s.host := rfl

/-! ### `record` -/

@[simp] theorem State.record_regs (c : FaultCode) (w : Word) : (s.record c w).regs = s.regs := rfl
@[simp] theorem State.record_pc (c : FaultCode) (w : Word) : (s.record c w).pc = s.pc := rfl
@[simp] theorem State.record_stk (c : FaultCode) (w : Word) : (s.record c w).stk = s.stk := rfl
@[simp] theorem State.record_mem (c : FaultCode) (w : Word) : (s.record c w).mem = s.mem := rfl
@[simp] theorem State.record_mlen (c : FaultCode) (w : Word) : (s.record c w).mlen = s.mlen := rfl
@[simp] theorem State.record_halt (c : FaultCode) (w : Word) : (s.record c w).halt = s.halt := rfl
@[simp] theorem State.record_fault (c : FaultCode) (w : Word) : (s.record c w).fault = c := rfl
@[simp] theorem State.record_finfo (c : FaultCode) (w : Word) : (s.record c w).finfo = w := rfl
@[simp] theorem State.record_out (c : FaultCode) (w : Word) : (s.record c w).out = s.out := rfl
@[simp] theorem State.record_outAcc (c : FaultCode) (w : Word) : (s.record c w).outAcc = s.outAcc := rfl
@[simp] theorem State.record_outLines (c : FaultCode) (w : Word) : (s.record c w).outLines = s.outLines := rfl
@[simp] theorem State.record_inAcc (c : FaultCode) (w : Word) : (s.record c w).inAcc = s.inAcc := rfl
@[simp] theorem State.record_history (c : FaultCode) (w : Word) : (s.record c w).history = s.history := rfl
@[simp] theorem State.record_chan (c : FaultCode) (w : Word) : (s.record c w).chan = s.chan := rfl
@[simp] theorem State.record_inq (c : FaultCode) (w : Word) : (s.record c w).inq = s.inq := rfl
@[simp] theorem State.record_host (c : FaultCode) (w : Word) : (s.record c w).host = s.host := rfl

/-! ### `memWrite` -/

@[simp] theorem State.memWrite_regs (a : Nat) (w : Word) : (s.memWrite a w).regs = s.regs := rfl
@[simp] theorem State.memWrite_pc (a : Nat) (w : Word) : (s.memWrite a w).pc = s.pc := rfl
@[simp] theorem State.memWrite_stk (a : Nat) (w : Word) : (s.memWrite a w).stk = s.stk := rfl
@[simp] theorem State.memWrite_mem (a : Nat) (w : Word) : (s.memWrite a w).mem = s.mem.writeWord a w := rfl
@[simp] theorem State.memWrite_mlen (a : Nat) (w : Word) : (s.memWrite a w).mlen = if s.mlen ≤ a then a + 1 else s.mlen := rfl
@[simp] theorem State.memWrite_halt (a : Nat) (w : Word) : (s.memWrite a w).halt = s.halt := rfl
@[simp] theorem State.memWrite_fault (a : Nat) (w : Word) : (s.memWrite a w).fault = s.fault := rfl
@[simp] theorem State.memWrite_finfo (a : Nat) (w : Word) : (s.memWrite a w).finfo = s.finfo := rfl
@[simp] theorem State.memWrite_out (a : Nat) (w : Word) : (s.memWrite a w).out = s.out := rfl
@[simp] theorem State.memWrite_outAcc (a : Nat) (w : Word) : (s.memWrite a w).outAcc = s.outAcc := rfl
@[simp] theorem State.memWrite_outLines (a : Nat) (w : Word) : (s.memWrite a w).outLines = s.outLines := rfl
@[simp] theorem State.memWrite_inAcc (a : Nat) (w : Word) : (s.memWrite a w).inAcc = s.inAcc := rfl
@[simp] theorem State.memWrite_history (a : Nat) (w : Word) : (s.memWrite a w).history = s.history := rfl
@[simp] theorem State.memWrite_chan (a : Nat) (w : Word) : (s.memWrite a w).chan = s.chan := rfl
@[simp] theorem State.memWrite_inq (a : Nat) (w : Word) : (s.memWrite a w).inq = s.inq := rfl
@[simp] theorem State.memWrite_host (a : Nat) (w : Word) : (s.memWrite a w).host = s.host := rfl

/-! ### `setHalt` -/

@[simp] theorem State.setHalt_regs : s.setHalt.regs = s.regs := rfl
@[simp] theorem State.setHalt_pc : s.setHalt.pc = s.pc := rfl
@[simp] theorem State.setHalt_stk : s.setHalt.stk = s.stk := rfl
@[simp] theorem State.setHalt_mem : s.setHalt.mem = s.mem := rfl
@[simp] theorem State.setHalt_mlen : s.setHalt.mlen = s.mlen := rfl
@[simp] theorem State.setHalt_halt : s.setHalt.halt = true := rfl
@[simp] theorem State.setHalt_fault : s.setHalt.fault = s.fault := rfl
@[simp] theorem State.setHalt_finfo : s.setHalt.finfo = s.finfo := rfl
@[simp] theorem State.setHalt_out : s.setHalt.out = s.out := rfl
@[simp] theorem State.setHalt_outAcc : s.setHalt.outAcc = s.outAcc := rfl
@[simp] theorem State.setHalt_outLines : s.setHalt.outLines = s.outLines := rfl
@[simp] theorem State.setHalt_inAcc : s.setHalt.inAcc = s.inAcc := rfl
@[simp] theorem State.setHalt_history : s.setHalt.history = s.history := rfl
@[simp] theorem State.setHalt_chan : s.setHalt.chan = s.chan := rfl
@[simp] theorem State.setHalt_inq : s.setHalt.inq = s.inq := rfl
@[simp] theorem State.setHalt_host : s.setHalt.host = s.host := rfl

/-! ### `dropChar` -/

@[simp] theorem State.dropChar_regs : s.dropChar.regs = s.regs := rfl
@[simp] theorem State.dropChar_pc : s.dropChar.pc = s.pc := rfl
@[simp] theorem State.dropChar_stk : s.dropChar.stk = s.stk := rfl
@[simp] theorem State.dropChar_mem : s.dropChar.mem = s.mem := rfl
@[simp] theorem State.dropChar_mlen : s.dropChar.mlen = s.mlen := rfl
@[simp] theorem State.dropChar_halt : s.dropChar.halt = s.halt := rfl
@[simp] theorem State.dropChar_fault : s.dropChar.fault = s.fault := rfl
@[simp] theorem State.dropChar_finfo : s.dropChar.finfo = s.finfo := rfl
@[simp] theorem State.dropChar_out : s.dropChar.out = s.out := rfl
@[simp] theorem State.dropChar_outAcc : s.dropChar.outAcc = s.outAcc := rfl
@[simp] theorem State.dropChar_outLines : s.dropChar.outLines = s.outLines := rfl
@[simp] theorem State.dropChar_inAcc : s.dropChar.inAcc = s.inAcc := rfl
@[simp] theorem State.dropChar_history : s.dropChar.history = s.history := rfl
@[simp] theorem State.dropChar_chan : s.dropChar.chan = s.chan := rfl
@[simp] theorem State.dropChar_inq : s.dropChar.inq = s.inq.tail := rfl
@[simp] theorem State.dropChar_host : s.dropChar.host = s.host := rfl

/-! ### `dropMove` -/

@[simp] theorem State.dropMove_regs : s.dropMove.regs = s.regs := rfl
@[simp] theorem State.dropMove_pc : s.dropMove.pc = s.pc := rfl
@[simp] theorem State.dropMove_stk : s.dropMove.stk = s.stk := rfl
@[simp] theorem State.dropMove_mem : s.dropMove.mem = s.mem := rfl
@[simp] theorem State.dropMove_mlen : s.dropMove.mlen = s.mlen := rfl
@[simp] theorem State.dropMove_halt : s.dropMove.halt = s.halt := rfl
@[simp] theorem State.dropMove_fault : s.dropMove.fault = s.fault := rfl
@[simp] theorem State.dropMove_finfo : s.dropMove.finfo = s.finfo := rfl
@[simp] theorem State.dropMove_out : s.dropMove.out = s.out := rfl
@[simp] theorem State.dropMove_outAcc : s.dropMove.outAcc = s.outAcc := rfl
@[simp] theorem State.dropMove_outLines : s.dropMove.outLines = s.outLines := rfl
@[simp] theorem State.dropMove_inAcc : s.dropMove.inAcc = s.inAcc := rfl
@[simp] theorem State.dropMove_history : s.dropMove.history = s.history := rfl
@[simp] theorem State.dropMove_chan : s.dropMove.chan = s.chan := rfl
@[simp] theorem State.dropMove_inq : s.dropMove.inq = s.inq := rfl
@[simp] theorem State.dropMove_host : s.dropMove.host = s.host.tail := rfl

/-! ### `archive` -/

@[simp] theorem State.archive_regs : s.archive.regs = s.regs := rfl
@[simp] theorem State.archive_pc : s.archive.pc = s.pc := rfl
@[simp] theorem State.archive_stk : s.archive.stk = s.stk := rfl
@[simp] theorem State.archive_mem : s.archive.mem = s.mem := rfl
@[simp] theorem State.archive_mlen : s.archive.mlen = s.mlen := rfl
@[simp] theorem State.archive_halt : s.archive.halt = s.halt := rfl
@[simp] theorem State.archive_fault : s.archive.fault = s.fault := rfl
@[simp] theorem State.archive_finfo : s.archive.finfo = s.finfo := rfl
@[simp] theorem State.archive_out : s.archive.out = s.out := rfl
@[simp] theorem State.archive_outAcc : s.archive.outAcc = s.outAcc := rfl
@[simp] theorem State.archive_outLines : s.archive.outLines = s.outLines := rfl
@[simp] theorem State.archive_inAcc : s.archive.inAcc = [] := rfl
@[simp] theorem State.archive_history : s.archive.history = s.history ++ [s.inAcc] := rfl
@[simp] theorem State.archive_chan : s.archive.chan = .collecting := rfl
@[simp] theorem State.archive_inq : s.archive.inq = s.inq := rfl
@[simp] theorem State.archive_host : s.archive.host = s.host := rfl

/-! ### `deliver` -/

@[simp] theorem State.deliver_regs (l : Line) : (s.deliver l).regs = s.regs := rfl
@[simp] theorem State.deliver_pc (l : Line) : (s.deliver l).pc = s.pc := rfl
@[simp] theorem State.deliver_stk (l : Line) : (s.deliver l).stk = s.stk := rfl
@[simp] theorem State.deliver_mem (l : Line) : (s.deliver l).mem = s.mem := rfl
@[simp] theorem State.deliver_mlen (l : Line) : (s.deliver l).mlen = s.mlen := rfl
@[simp] theorem State.deliver_halt (l : Line) : (s.deliver l).halt = s.halt := rfl
@[simp] theorem State.deliver_fault (l : Line) : (s.deliver l).fault = s.fault := rfl
@[simp] theorem State.deliver_finfo (l : Line) : (s.deliver l).finfo = s.finfo := rfl
@[simp] theorem State.deliver_out (l : Line) : (s.deliver l).out = s.out := rfl
@[simp] theorem State.deliver_outAcc (l : Line) : (s.deliver l).outAcc = s.outAcc := rfl
@[simp] theorem State.deliver_outLines (l : Line) : (s.deliver l).outLines = s.outLines := rfl
@[simp] theorem State.deliver_inAcc (l : Line) : (s.deliver l).inAcc = s.inAcc := rfl
@[simp] theorem State.deliver_history (l : Line) : (s.deliver l).history = s.history := rfl
@[simp] theorem State.deliver_chan (l : Line) : (s.deliver l).chan = s.chan := rfl
@[simp] theorem State.deliver_inq (l : Line) : (s.deliver l).inq = s.inq ++ l ++ [Config.newline] := rfl
@[simp] theorem State.deliver_host (l : Line) : (s.deliver l).host = s.host := rfl

/-! ### `emitChar` -/

@[simp] theorem State.emitChar_regs (c : Value) : (s.emitChar c).regs = s.regs := by
  unfold State.emitChar; split <;> rfl
@[simp] theorem State.emitChar_pc (c : Value) : (s.emitChar c).pc = s.pc := by
  unfold State.emitChar; split <;> rfl
@[simp] theorem State.emitChar_stk (c : Value) : (s.emitChar c).stk = s.stk := by
  unfold State.emitChar; split <;> rfl
@[simp] theorem State.emitChar_mem (c : Value) : (s.emitChar c).mem = s.mem := by
  unfold State.emitChar; split <;> rfl
@[simp] theorem State.emitChar_mlen (c : Value) : (s.emitChar c).mlen = s.mlen := by
  unfold State.emitChar; split <;> rfl
@[simp] theorem State.emitChar_halt (c : Value) : (s.emitChar c).halt = s.halt := by
  unfold State.emitChar; split <;> rfl
@[simp] theorem State.emitChar_fault (c : Value) : (s.emitChar c).fault = s.fault := by
  unfold State.emitChar; split <;> rfl
@[simp] theorem State.emitChar_finfo (c : Value) : (s.emitChar c).finfo = s.finfo := by
  unfold State.emitChar; split <;> rfl
@[simp] theorem State.emitChar_out (c : Value) : (s.emitChar c).out = s.out ++ [c] := by
  unfold State.emitChar; split <;> rfl
@[simp] theorem State.emitChar_outAcc (c : Value) : (s.emitChar c).outAcc = if c = Config.newline then [] else s.outAcc ++ [c] := by
  unfold State.emitChar; split <;> rfl
@[simp] theorem State.emitChar_outLines (c : Value) : (s.emitChar c).outLines = if c = Config.newline then s.outLines ++ [s.outAcc] else s.outLines := by
  unfold State.emitChar; split <;> rfl
@[simp] theorem State.emitChar_inAcc (c : Value) : (s.emitChar c).inAcc = s.inAcc := by
  unfold State.emitChar; split <;> rfl
@[simp] theorem State.emitChar_history (c : Value) : (s.emitChar c).history = s.history := by
  unfold State.emitChar; split <;> rfl
@[simp] theorem State.emitChar_chan (c : Value) : (s.emitChar c).chan = s.chan := by
  unfold State.emitChar; split <;> rfl
@[simp] theorem State.emitChar_inq (c : Value) : (s.emitChar c).inq = s.inq := by
  unfold State.emitChar; split <;> rfl
@[simp] theorem State.emitChar_host (c : Value) : (s.emitChar c).host = s.host := by
  unfold State.emitChar; split <;> rfl

/-! ### `typeKey` -/

@[simp] theorem State.typeKey_regs (c : Value) : (s.typeKey c).regs = s.regs := by
  unfold State.typeKey; split <;> rfl
@[simp] theorem State.typeKey_pc (c : Value) : (s.typeKey c).pc = s.pc := by
  unfold State.typeKey; split <;> rfl
@[simp] theorem State.typeKey_stk (c : Value) : (s.typeKey c).stk = s.stk := by
  unfold State.typeKey; split <;> rfl
@[simp] theorem State.typeKey_mem (c : Value) : (s.typeKey c).mem = s.mem := by
  unfold State.typeKey; split <;> rfl
@[simp] theorem State.typeKey_mlen (c : Value) : (s.typeKey c).mlen = s.mlen := by
  unfold State.typeKey; split <;> rfl
@[simp] theorem State.typeKey_halt (c : Value) : (s.typeKey c).halt = s.halt := by
  unfold State.typeKey; split <;> rfl
@[simp] theorem State.typeKey_fault (c : Value) : (s.typeKey c).fault = s.fault := by
  unfold State.typeKey; split <;> rfl
@[simp] theorem State.typeKey_finfo (c : Value) : (s.typeKey c).finfo = s.finfo := by
  unfold State.typeKey; split <;> rfl
@[simp] theorem State.typeKey_out (c : Value) : (s.typeKey c).out = s.out := by
  unfold State.typeKey; split <;> rfl
@[simp] theorem State.typeKey_outAcc (c : Value) : (s.typeKey c).outAcc = s.outAcc := by
  unfold State.typeKey; split <;> rfl
@[simp] theorem State.typeKey_outLines (c : Value) : (s.typeKey c).outLines = s.outLines := by
  unfold State.typeKey; split <;> rfl
@[simp] theorem State.typeKey_inAcc (c : Value) : (s.typeKey c).inAcc = if c = Config.newline then s.inAcc else s.inAcc ++ [c] := by
  unfold State.typeKey; split <;> rfl
@[simp] theorem State.typeKey_history (c : Value) : (s.typeKey c).history = s.history := by
  unfold State.typeKey; split <;> rfl
@[simp] theorem State.typeKey_chan (c : Value) : (s.typeKey c).chan = if c = Config.newline then .dispatching else s.chan := by
  unfold State.typeKey; split <;> rfl
@[simp] theorem State.typeKey_inq (c : Value) : (s.typeKey c).inq = s.inq := by
  unfold State.typeKey; split <;> rfl
@[simp] theorem State.typeKey_host (c : Value) : (s.typeKey c).host = s.host := by
  unfold State.typeKey; split <;> rfl

/-! ### Registers -/

/-- Two states with the same register file read the same registers. -/
theorem State.reg_congr {s t : State} (h : t.regs = s.regs) (r : Fin 8) : t.reg r = s.reg r := by
  unfold State.reg; rw [h]

theorem State.reg_setReg (r q : Fin 8) (v : Value) : (s.setReg r v).reg q = if q = r then v else s.reg q := by
  unfold State.reg State.setReg
  by_cases h : q = r
  · subst h; simp
  · have h' : (r : Nat) ≠ q := fun e => h (Fin.ext e.symm)
    simp [h, h']

@[simp] theorem State.reg_setReg_same (r : Fin 8) (v : Value) : (s.setReg r v).reg r = v := by
  simp [State.reg_setReg]

theorem State.reg_setReg_other {r q : Fin 8} (h : q ≠ r) (v : Value) : (s.setReg r v).reg q = s.reg q := by
  simp [State.reg_setReg, h]

/-- Register files with the same contents are equal. -/
theorem State.regs_ext {s t : State} (h : ∀ r, t.reg r = s.reg r) : t.regs = s.regs := by
  apply Vector.ext
  intro i hi
  exact h ⟨i, hi⟩

/-! ### Presets and pokes -/

theorem State.preset_eq (ps : List (Fin 8 × Value)) : s.preset ps = { s with regs := (s.preset ps).regs } := by
  induction ps generalizing s with
  | nil => rfl
  | cons p ps ih =>
    have h := ih (s.setReg p.1 p.2)
    show State.preset (s.setReg p.1 p.2) ps = _
    rw [h]; rfl

/-- A register that no preset names keeps its value. -/
theorem State.reg_preset_other {ps : List (Fin 8 × Value)} {r : Fin 8} (h : ∀ p ∈ ps, p.1 ≠ r) :
    (s.preset ps).reg r = s.reg r := by
  induction ps generalizing s with
  | nil => rfl
  | cons p ps ih =>
    have hp := h p (by simp)
    show (State.preset (s.setReg p.1 p.2) ps).reg r = _
    rw [ih _ fun q hq => h q (by simp [hq]), State.reg_setReg_other _ hp.symm]

/-- The last preset that names a register gives its value. -/
theorem State.reg_preset_last {before after : List (Fin 8 × Value)} {r : Fin 8} {v : Value}
    (h : ∀ p ∈ after, p.1 ≠ r) : (s.preset (before ++ (r, v) :: after)).reg r = v := by
  induction before generalizing s with
  | nil =>
    show (State.preset (s.setReg r v) after).reg r = v
    rw [State.reg_preset_other _ h, State.reg_setReg_same]
  | cons p before ih => exact ih (s.setReg p.1 p.2)

theorem State.poke_eq (a : Nat) (ws : List Word) :
    s.poke a ws = { s with mem := (s.poke a ws).mem, mlen := (s.poke a ws).mlen } := by
  induction ws generalizing s a with
  | nil => rfl
  | cons w ws ih =>
    unfold State.poke
    split
    · rw [ih (s.memWrite a w) (a + 1)]; rfl
    · rfl

@[simp] theorem State.preset_pc (ps : List (Fin 8 × Value)) : (s.preset ps).pc = s.pc := by
  rw [State.preset_eq]
@[simp] theorem State.preset_stk (ps : List (Fin 8 × Value)) : (s.preset ps).stk = s.stk := by
  rw [State.preset_eq]
@[simp] theorem State.preset_mem (ps : List (Fin 8 × Value)) : (s.preset ps).mem = s.mem := by
  rw [State.preset_eq]
@[simp] theorem State.preset_mlen (ps : List (Fin 8 × Value)) : (s.preset ps).mlen = s.mlen := by
  rw [State.preset_eq]
@[simp] theorem State.preset_halt (ps : List (Fin 8 × Value)) : (s.preset ps).halt = s.halt := by
  rw [State.preset_eq]
@[simp] theorem State.preset_fault (ps : List (Fin 8 × Value)) : (s.preset ps).fault = s.fault := by
  rw [State.preset_eq]
@[simp] theorem State.preset_finfo (ps : List (Fin 8 × Value)) : (s.preset ps).finfo = s.finfo := by
  rw [State.preset_eq]
@[simp] theorem State.preset_out (ps : List (Fin 8 × Value)) : (s.preset ps).out = s.out := by
  rw [State.preset_eq]
@[simp] theorem State.preset_outAcc (ps : List (Fin 8 × Value)) : (s.preset ps).outAcc = s.outAcc := by
  rw [State.preset_eq]
@[simp] theorem State.preset_outLines (ps : List (Fin 8 × Value)) : (s.preset ps).outLines = s.outLines := by
  rw [State.preset_eq]
@[simp] theorem State.preset_inAcc (ps : List (Fin 8 × Value)) : (s.preset ps).inAcc = s.inAcc := by
  rw [State.preset_eq]
@[simp] theorem State.preset_history (ps : List (Fin 8 × Value)) : (s.preset ps).history = s.history := by
  rw [State.preset_eq]
@[simp] theorem State.preset_chan (ps : List (Fin 8 × Value)) : (s.preset ps).chan = s.chan := by
  rw [State.preset_eq]
@[simp] theorem State.preset_inq (ps : List (Fin 8 × Value)) : (s.preset ps).inq = s.inq := by
  rw [State.preset_eq]
@[simp] theorem State.preset_host (ps : List (Fin 8 × Value)) : (s.preset ps).host = s.host := by
  rw [State.preset_eq]

@[simp] theorem State.poke_regs (a : Nat) (ws : List Word) : (s.poke a ws).regs = s.regs := by
  rw [State.poke_eq]
@[simp] theorem State.poke_pc (a : Nat) (ws : List Word) : (s.poke a ws).pc = s.pc := by
  rw [State.poke_eq]
@[simp] theorem State.poke_stk (a : Nat) (ws : List Word) : (s.poke a ws).stk = s.stk := by
  rw [State.poke_eq]
@[simp] theorem State.poke_halt (a : Nat) (ws : List Word) : (s.poke a ws).halt = s.halt := by
  rw [State.poke_eq]
@[simp] theorem State.poke_fault (a : Nat) (ws : List Word) : (s.poke a ws).fault = s.fault := by
  rw [State.poke_eq]
@[simp] theorem State.poke_finfo (a : Nat) (ws : List Word) : (s.poke a ws).finfo = s.finfo := by
  rw [State.poke_eq]
@[simp] theorem State.poke_out (a : Nat) (ws : List Word) : (s.poke a ws).out = s.out := by
  rw [State.poke_eq]
@[simp] theorem State.poke_outAcc (a : Nat) (ws : List Word) : (s.poke a ws).outAcc = s.outAcc := by
  rw [State.poke_eq]
@[simp] theorem State.poke_outLines (a : Nat) (ws : List Word) : (s.poke a ws).outLines = s.outLines := by
  rw [State.poke_eq]
@[simp] theorem State.poke_inAcc (a : Nat) (ws : List Word) : (s.poke a ws).inAcc = s.inAcc := by
  rw [State.poke_eq]
@[simp] theorem State.poke_history (a : Nat) (ws : List Word) : (s.poke a ws).history = s.history := by
  rw [State.poke_eq]
@[simp] theorem State.poke_chan (a : Nat) (ws : List Word) : (s.poke a ws).chan = s.chan := by
  rw [State.poke_eq]
@[simp] theorem State.poke_inq (a : Nat) (ws : List Word) : (s.poke a ws).inq = s.inq := by
  rw [State.poke_eq]
@[simp] theorem State.poke_host (a : Nat) (ws : List Word) : (s.poke a ws).host = s.host := by
  rw [State.poke_eq]

/-! ### `debug` and `dispatchLine` -/

@[simp] theorem State.debug_pc (op : DebugOp) : (s.debug op).pc = s.pc := by
  cases op <;> simp [State.debug]
@[simp] theorem State.debug_stk (op : DebugOp) : (s.debug op).stk = s.stk := by
  cases op <;> simp [State.debug]
@[simp] theorem State.debug_fault (op : DebugOp) : (s.debug op).fault = s.fault := by
  cases op <;> simp [State.debug]
@[simp] theorem State.debug_finfo (op : DebugOp) : (s.debug op).finfo = s.finfo := by
  cases op <;> simp [State.debug]
@[simp] theorem State.debug_out (op : DebugOp) : (s.debug op).out = s.out := by
  cases op <;> simp [State.debug]
@[simp] theorem State.debug_outAcc (op : DebugOp) : (s.debug op).outAcc = s.outAcc := by
  cases op <;> simp [State.debug]
@[simp] theorem State.debug_outLines (op : DebugOp) : (s.debug op).outLines = s.outLines := by
  cases op <;> simp [State.debug]
@[simp] theorem State.debug_inAcc (op : DebugOp) : (s.debug op).inAcc = s.inAcc := by
  cases op <;> simp [State.debug]
@[simp] theorem State.debug_history (op : DebugOp) : (s.debug op).history = s.history := by
  cases op <;> simp [State.debug]
@[simp] theorem State.debug_chan (op : DebugOp) : (s.debug op).chan = s.chan := by
  cases op <;> simp [State.debug]
@[simp] theorem State.debug_inq (op : DebugOp) : (s.debug op).inq = s.inq := by
  cases op <;> simp [State.debug]
@[simp] theorem State.debug_host (op : DebugOp) : (s.debug op).host = s.host := by
  cases op <;> simp [State.debug]

@[simp] theorem State.dispatchLine_pc : s.dispatchLine.pc = s.pc := by
  unfold State.dispatchLine; split
  · split <;> simp
  · simp
@[simp] theorem State.dispatchLine_stk : s.dispatchLine.stk = s.stk := by
  unfold State.dispatchLine; split
  · split <;> simp
  · simp
@[simp] theorem State.dispatchLine_fault : s.dispatchLine.fault = s.fault := by
  unfold State.dispatchLine; split
  · split <;> simp
  · simp
@[simp] theorem State.dispatchLine_finfo : s.dispatchLine.finfo = s.finfo := by
  unfold State.dispatchLine; split
  · split <;> simp
  · simp
@[simp] theorem State.dispatchLine_out : s.dispatchLine.out = s.out := by
  unfold State.dispatchLine; split
  · split <;> simp
  · simp
@[simp] theorem State.dispatchLine_outAcc : s.dispatchLine.outAcc = s.outAcc := by
  unfold State.dispatchLine; split
  · split <;> simp
  · simp
@[simp] theorem State.dispatchLine_outLines : s.dispatchLine.outLines = s.outLines := by
  unfold State.dispatchLine; split
  · split <;> simp
  · simp
@[simp] theorem State.dispatchLine_inAcc : s.dispatchLine.inAcc = [] := by
  unfold State.dispatchLine; split
  · split <;> simp
  · simp
@[simp] theorem State.dispatchLine_history : s.dispatchLine.history = s.history ++ [s.inAcc] := by
  unfold State.dispatchLine; split
  · split <;> simp
  · simp
@[simp] theorem State.dispatchLine_chan : s.dispatchLine.chan = .collecting := by
  unfold State.dispatchLine; split
  · split <;> simp
  · simp
@[simp] theorem State.dispatchLine_host : s.dispatchLine.host = s.host := by
  unfold State.dispatchLine; split
  · split <;> simp
  · simp

end Sys2Proof.Machine
end

