-- ==== Sys2Proof/Laws/Memory.lean ====
section
/-! SUPPORT. The laws of memory: read after write, writes leave other places alone, every operation keeps the canonical
form (20_memory.md R33, R34). -/

namespace Sys2Proof.Machine

/-! ### Bytes -/

theorem Memory.read_insert (m : Memory) (a k : Nat) (b : Byte) :
    (m.insert a b).read k = if k = a then b else m.read k := by
  induction m with
  | nil => by_cases h : k = a <;> simp [Memory.insert, Memory.read, h]
  | cons c m ih =>
    obtain ⟨j, v⟩ := c
    simp only [Memory.insert]
    split
    · by_cases h : k = a <;> simp [Memory.read, h]
    · split
      · subst_vars; by_cases h : k = j <;> simp [Memory.read, h]
      · rename_i h1 h2
        simp only [Memory.read, ih]
        by_cases h : k = a
        · subst h; simp [h2]
        · simp [h]

theorem Memory.read_erase (m : Memory) (a k : Nat) :
    Memory.read (m.filter (fun c => c.1 ≠ a)) k = if k = a then 0 else m.read k := by
  induction m with
  | nil => simp [Memory.read]
  | cons c m ih =>
    obtain ⟨j, v⟩ := c
    by_cases hj : j = a
    · subst hj
      by_cases h : k = j <;> simp_all [Memory.read]
    · by_cases h : k = a
      · subst h; simp_all [Memory.read, Ne.symm hj]
      · simp_all [Memory.read]

/-- A byte after a write: the written byte at the address, every other byte as before. -/
theorem Memory.read_write (m : Memory) (a k : Nat) (b : Byte) :
    (m.write a b).read k = if k = a then b else m.read k := by
  unfold Memory.write
  split
  · rename_i h; rw [Memory.read_erase, h]
  · exact Memory.read_insert m a k b

/-- An address that no entry lists reads as 0. -/
theorem Memory.read_unlisted {m : Memory} {a : Nat} (h : ∀ c ∈ m, c.1 ≠ a) : m.read a = 0 := by
  induction m with
  | nil => rfl
  | cons c m ih =>
    have h1 : a ≠ c.1 := fun e => h c (by simp) e.symm
    simp only [Memory.read, h1, if_false]
    exact ih fun d hd => h d (by simp [hd])

/-! ### The canonical form -/

theorem Memory.mem_insert {m : Memory} {a : Nat} {b : Byte} {c : Host.Cell} (h : c ∈ m.insert a b) :
    c = (a, b) ∨ c ∈ m := by
  induction m with
  | nil => simpa [Memory.insert] using h
  | cons d m ih =>
    obtain ⟨k, v⟩ := d
    simp only [Memory.insert] at h
    split at h
    · simpa using h
    · split at h
      · simp only [List.mem_cons] at h ⊢; tauto
      · simp only [List.mem_cons] at h ⊢
        rcases h with h | h
        · exact .inr (.inl h)
        · exact (ih h).imp id .inr

theorem Memory.insert_sorted {m : Memory} (h : m.Pairwise (fun c d => c.1 < d.1)) (a : Nat) (b : Byte) :
    (m.insert a b).Pairwise (fun c d => c.1 < d.1) := by
  induction m with
  | nil => simp [Memory.insert]
  | cons d m ih =>
    obtain ⟨k, v⟩ := d
    have hk := List.pairwise_cons.1 h
    simp only [Memory.insert]
    split
    · rename_i hlt
      refine List.pairwise_cons.2 ⟨fun c hc => ?_, h⟩
      rcases List.mem_cons.1 hc with rfl | hc
      · exact hlt
      · exact Nat.lt_trans hlt (hk.1 c hc)
    · split
      · rename_i _ heq
        exact List.pairwise_cons.2 ⟨fun c hc => heq ▸ hk.1 c hc, hk.2⟩
      · refine List.pairwise_cons.2 ⟨fun c hc => ?_, ih hk.2⟩
        rcases Memory.mem_insert hc with rfl | hc
        · show k < a; omega
        · exact hk.1 c hc

/-- A byte write keeps the canonical form. -/
theorem Memory.write_wf {m : Memory} (h : m.wf) (a : Nat) (b : Byte) : (m.write a b).wf := by
  unfold Memory.write
  split
  · exact ⟨h.1.filter _, fun c hc => h.2 c (List.mem_filter.1 hc).1⟩
  · rename_i hb
    refine ⟨Memory.insert_sorted h.1 a b, fun c hc => ?_⟩
    rcases Memory.mem_insert hc with rfl | hc
    · exact hb
    · exact h.2 c hc

/-- What a byte write lists: what was listed, and the address written. -/
theorem Memory.mem_write {m : Memory} {a : Nat} {b : Byte} {c : Host.Cell} (h : c ∈ m.write a b) :
    c.1 = a ∨ c ∈ m := by
  unfold Memory.write at h
  split at h
  · exact .inr (List.mem_filter.1 h).1
  · exact (Memory.mem_insert h).imp (fun e => by rw [e]) id

theorem Memory.writeWord_wf {m : Memory} (h : m.wf) (a : Nat) (w : Word) : (m.writeWord a w).wf :=
  Memory.write_wf (Memory.write_wf h _ _) _ _

theorem Memory.mem_writeWord {m : Memory} {a : Nat} {w : Word} {c : Host.Cell} (h : c ∈ m.writeWord a w) :
    c.1 = 2 * a ∨ c.1 = 2 * a + 1 ∨ c ∈ m := by
  rcases Memory.mem_write h with h | h
  · exact .inr (.inl h)
  · exact (Memory.mem_write h).imp id .inr

theorem Memory.writeWords_wf {m : Memory} (h : m.wf) (a : Nat) (ws : List Word) : (m.writeWords a ws).wf := by
  induction ws generalizing m a with
  | nil => exact h
  | cons w ws ih => exact ih (Memory.writeWord_wf h a w) (a + 1)

theorem Memory.mem_writeWords {m : Memory} {a : Nat} {ws : List Word} {c : Host.Cell} (h : c ∈ m.writeWords a ws) :
    (2 * a ≤ c.1 ∧ c.1 < 2 * (a + ws.length)) ∨ c ∈ m := by
  induction ws generalizing m a with
  | nil => exact .inr h
  | cons w ws ih =>
    rcases ih h with h | h
    · left; simp only [List.length_cons]; omega
    · rcases Memory.mem_writeWord h with h | h | h
      · left; simp only [List.length_cons]; omega
      · left; simp only [List.length_cons]; omega
      · exact .inr h

/-! ### Words -/

/-- A word is the two bytes it is split into. -/
theorem word_of_bytes (w : Word) : w.extractLsb' 8 8 ++ w.extractLsb' 0 8 = w := by
  apply BitVec.eq_of_getLsbD_eq
  intro i hi
  simp only [BitVec.getLsbD_append, BitVec.getLsbD_extractLsb']
  by_cases h : i < 8
  · simp [h]
  · have : i - 8 < 8 := by omega
    have e : 8 + (i - 8) = i := by omega
    simp [h, this, e]

/-- A word after a word write: the written word at the address, every other word as before. -/
theorem Memory.readWord_writeWord (m : Memory) (a k : Nat) (w : Word) :
    (m.writeWord a w).readWord k = if k = a then w else m.readWord k := by
  unfold Memory.readWord Memory.writeWord
  simp only [Memory.read_write]
  by_cases h : k = a
  · subst h
    have : ¬ (2 * k = 2 * k + 1) := by omega
    simp only [if_true, this, if_false]
    exact word_of_bytes w
  · have h1 : ¬ (2 * k + 1 = 2 * a + 1) := by omega
    have h2 : ¬ (2 * k + 1 = 2 * a) := by omega
    have h3 : ¬ (2 * k = 2 * a + 1) := by omega
    have h4 : ¬ (2 * k = 2 * a) := by omega
    simp [h, h2, h3, h4]

/-- A byte after a word write: outside the word's two bytes, as before. -/
theorem Memory.read_writeWord_other {m : Memory} {a k : Nat} {w : Word} (h0 : k ≠ 2 * a) (h1 : k ≠ 2 * a + 1) :
    (m.writeWord a w).read k = m.read k := by
  unfold Memory.writeWord
  simp [Memory.read_write, h0, h1]

/-- A word after writing words at rising addresses. -/
theorem Memory.readWord_writeWords (m : Memory) (a k : Nat) (ws : List Word) :
    (m.writeWords a ws).readWord k = if h : a ≤ k ∧ k - a < ws.length then ws[k - a]'h.2 else m.readWord k := by
  induction ws generalizing m a with
  | nil => simp [Memory.writeWords]
  | cons w ws ih =>
    simp only [Memory.writeWords, ih, Memory.readWord_writeWord, List.length_cons]
    by_cases hk : k = a
    · subst hk; simp
    · by_cases hle : a ≤ k
      · have e : k - a = (k - (a + 1)) + 1 := by omega
        have : a + 1 ≤ k := by omega
        by_cases hl : k - (a + 1) < ws.length
        · simp [hle, this, hl, e]
        · simp [hk, hle, this, hl, e]
      · have : ¬ (a + 1 ≤ k) := by omega
        simp [hk, hle, this]

/-- Cells above every listed byte read as 0. -/
theorem Memory.readWord_above {m : Memory} {n a : Nat} (h : ∀ c ∈ m, c.1 < 2 * n) (ha : n ≤ a) : m.readWord a = 0 := by
  unfold Memory.readWord
  rw [Memory.read_unlisted, Memory.read_unlisted]
  · rfl
  · intro c hc; have := h c hc; omega
  · intro c hc; have := h c hc; omega

/-! ### Memories with the same contents -/

theorem Memory.read_head {k : Nat} {b : Byte} {m : Memory} : Memory.read ((k, b) :: m) k = b := by
  simp [Memory.read]

/-- Canonical memories that read alike are equal as data. -/
theorem Memory.ext_of_wf {m n : Memory} (hm : m.wf) (hn : n.wf) (h : ∀ a, m.read a = n.read a) : m = n := by
  induction m generalizing n with
  | nil =>
    cases n with
    | nil => rfl
    | cons d n =>
      have := h d.1
      rw [show Memory.read (d :: n) d.1 = d.2 from Memory.read_head] at this
      exact absurd this.symm (hn.2 d (by simp))
  | cons c m ih =>
    cases n with
    | nil =>
      have := h c.1
      rw [show Memory.read (c :: m) c.1 = c.2 from Memory.read_head] at this
      exact absurd this (hm.2 c (by simp))
    | cons d n =>
      have hc := List.pairwise_cons.1 hm.1
      have hd := List.pairwise_cons.1 hn.1
      have tail_read : ∀ (x : Host.Cell) (l : Memory), (∀ y ∈ l, x.1 < y.1) → ∀ a, a ≤ x.1 → Memory.read l a = 0 :=
        fun x l hl a ha => Memory.read_unlisted fun y hy e => by have := hl y hy; omega
      have key : c.1 = d.1 := by
        rcases Nat.lt_trichotomy c.1 d.1 with lt | e | gt
        · have := h c.1
          rw [show Memory.read (c :: m) c.1 = c.2 from Memory.read_head] at this
          have z : Memory.read (d :: n) c.1 = 0 := Memory.read_unlisted fun y hy e => by
            rcases List.mem_cons.1 hy with rfl | hy
            · omega
            · have := hd.1 y hy; omega
          exact absurd (this.trans z) (hm.2 c (by simp))
        · exact e
        · have := h d.1
          rw [show Memory.read (d :: n) d.1 = d.2 from Memory.read_head] at this
          have z : Memory.read (c :: m) d.1 = 0 := Memory.read_unlisted fun y hy e => by
            rcases List.mem_cons.1 hy with rfl | hy
            · omega
            · have := hc.1 y hy; omega
          exact absurd (this.symm.trans z) (hn.2 d (by simp))
      obtain ⟨k, b⟩ := c
      obtain ⟨j, v⟩ := d
      obtain rfl : k = j := key
      have hb : b = v := by
        have := h k
        rwa [Memory.read_head, Memory.read_head] at this
      subst hb
      congr 1
      refine ih ⟨hc.2, fun c hc => hm.2 c (by simp [hc])⟩ ⟨hd.2, fun c hc => hn.2 c (by simp [hc])⟩ fun a => ?_
      by_cases ha : a = k
      · subst ha
        rw [tail_read (a, b) m hc.1 a (Nat.le_refl a), tail_read (a, b) n hd.1 a (Nat.le_refl a)]
      · have := h a
        simpa [Memory.read, ha] using this

/-! ### Words of a state -/

theorem State.word_congr {s t : State} (h : t.mem = s.mem) (a : Nat) : t.word a = s.word a := by
  unfold State.word; rw [h]

/-- `MemWrite` (R34): the written word at the address, every other word as before. -/
theorem State.word_memWrite (s : State) (a k : Nat) (w : Word) :
    (s.memWrite a w).word k = if k = a then w else s.word k :=
  Memory.readWord_writeWord s.mem a k w

/-- `MemRead` (R33) has a value exactly below the extent. -/
theorem State.memRead_eq_some {s : State} {a : Nat} {w : Word} :
    s.memRead a = some w ↔ a < s.mlen ∧ s.word a = w := by
  unfold State.memRead
  split
  · constructor
    · intro h; simp at h
    · intro h; omega
  · simp; omega

theorem State.memRead_eq_none {s : State} {a : Nat} : s.memRead a = none ↔ s.mlen ≤ a := by
  unfold State.memRead; split <;> simp_all

/-! ### The memory part of the core invariant -/

/-- A memory write below the ceiling keeps the canonical form, the cells beyond the extent and the ceiling. -/
theorem State.memWrite_keeps {s : State} {a : Nat} (w : Word) (hw : s.mem.wf) (hc : ∀ c ∈ s.mem, c.1 < 2 * s.mlen)
    (hl : s.mlen ≤ Config.memCap) (ha : a < Config.memCap) :
    (s.memWrite a w).mem.wf ∧ (∀ c ∈ (s.memWrite a w).mem, c.1 < 2 * (s.memWrite a w).mlen) ∧
      (s.memWrite a w).mlen ≤ Config.memCap := by
  refine ⟨Memory.writeWord_wf hw a w, fun c hcell => ?_, ?_⟩
  · simp only [State.memWrite_mlen]
    rcases Memory.mem_writeWord hcell with h | h | h
    · split <;> omega
    · split <;> omega
    · have := hc c h; split <;> omega
  · simp only [State.memWrite_mlen]; split <;> omega

/-- So does a debug poke (60_exceptions.md R149). -/
theorem State.poke_keeps {s : State} {a : Nat} (ws : List Word) (hw : s.mem.wf) (hc : ∀ c ∈ s.mem, c.1 < 2 * s.mlen)
    (hl : s.mlen ≤ Config.memCap) :
    (s.poke a ws).mem.wf ∧ (∀ c ∈ (s.poke a ws).mem, c.1 < 2 * (s.poke a ws).mlen) ∧
      (s.poke a ws).mlen ≤ Config.memCap := by
  induction ws generalizing s a with
  | nil => exact ⟨hw, hc, hl⟩
  | cons w ws ih =>
    unfold State.poke
    split
    · rename_i ha
      obtain ⟨h1, h2, h3⟩ := State.memWrite_keeps w hw hc hl ha
      exact ih h1 h2 h3
    · exact ⟨hw, hc, hl⟩

/-- So does the load of an image that fits (70_reset_and_hazards.md R160). -/
theorem State.loaded_keeps {img : List Word} (moves : List HostMove) (h : img.length ≤ Config.memCap) :
    (State.loaded img moves).mem.wf ∧ (∀ c ∈ (State.loaded img moves).mem, c.1 < 2 * (State.loaded img moves).mlen) ∧
      (State.loaded img moves).mlen ≤ Config.memCap := by
  refine ⟨Memory.writeWords_wf (by decide) 0 img, fun c hc => ?_, h⟩
  rcases Memory.mem_writeWords hc with h | h
  · simpa [State.loaded] using h.2
  · simp at h

/-- A poke never shrinks the extent. -/
theorem State.poke_mlen_le (s : State) (a : Nat) (ws : List Word) : s.mlen ≤ (s.poke a ws).mlen := by
  induction ws generalizing s a with
  | nil => exact Nat.le_refl _
  | cons w ws ih =>
    unfold State.poke
    split
    · refine Nat.le_trans ?_ (ih (s.memWrite a w) (a + 1))
      simp only [State.memWrite_mlen]; split <;> omega
    · exact Nat.le_refl _

/-- What a poke stores: each word at its address up to 32767, and no other word changes. -/
theorem State.word_poke (s : State) (a k : Nat) (ws : List Word) :
    (s.poke a ws).word k = if h : a ≤ k ∧ k - a < ws.length ∧ k < 32768 then ws[k - a]'h.2.1 else s.word k := by
  induction ws generalizing s a with
  | nil => simp [State.poke]
  | cons w ws ih =>
    unfold State.poke
    simp only [List.length_cons]
    have hc : Config.memCap = 32768 := rfl
    by_cases ha : a < Config.memCap
    · rw [if_pos ha, ih]
      rcases Nat.lt_trichotomy k a with hk | rfl | hk
      · rw [dif_neg (by omega), dif_neg (by omega), State.word_memWrite, if_neg (by omega)]
      · rw [dif_neg (by omega), dif_pos ⟨Nat.le_refl _, by omega, by omega⟩, State.word_memWrite, if_pos rfl]
        simp
      · obtain ⟨j, rfl⟩ : ∃ j, k = a + 1 + j := ⟨k - (a + 1), by omega⟩
        have e : a + 1 + j - a = j + 1 := by omega
        simp only [State.word_memWrite, Nat.add_sub_cancel_left, e, List.getElem_cons_succ]
        rw [if_neg (show a + 1 + j ≠ a by omega)]
        split <;> split <;> first | rfl | omega
    · rw [if_neg ha, dif_neg (by omega)]

/-- How far a poke moves the extent. -/
theorem State.poke_mlen (s : State) (a : Nat) (ws : List Word) (hw : ws ≠ []) (ha : a ≤ 32767) :
    (s.poke a ws).mlen = max s.mlen (min (a + ws.length) 32768) := by
  induction ws generalizing s a with
  | nil => exact absurd rfl hw
  | cons w ws ih =>
    have hm : (s.memWrite a w).mlen = max s.mlen (a + 1) := by
      rw [State.memWrite_mlen]
      split <;> omega
    unfold State.poke
    rw [if_pos (show a < Config.memCap by simp only [Config.memCap]; omega)]
    cases ws with
    | nil => simp only [State.poke, hm, List.length_singleton]; omega
    | cons x xs =>
      by_cases h : a + 1 ≤ 32767
      · rw [ih _ _ (by simp) h, hm]
        simp only [List.length_cons]
        omega
      · unfold State.poke
        rw [if_neg (by simp only [Config.memCap]; omega), hm]
        simp only [List.length_cons]
        omega

end Sys2Proof.Machine
end

