-- ==== Sys2Proof/Laws/Operands.lean ====
section
/-! SUPPORT. What the operand resolver and the two ways of taking an operand can do (40_execution_cycle.md R73, R74), each
said once. -/

namespace Sys2Proof.Machine

@[simp] theorem State.resolve_lit (s : State) (v : Value) : s.resolve (.lit v) = some v := rfl
@[simp] theorem State.resolve_reg (s : State) (r : Fin 8) : s.resolve (.reg r) = some (s.reg r) := rfl
@[simp] theorem State.resolve_illegal (s : State) (k : Fin 32760) : s.resolve (.illegal k) = none := rfl

/-- An operand has a value exactly when it may stand at a source position. -/
theorem State.resolve_isSome (s : State) (a : Operand) : (s.resolve a).isSome = a.isSource := by
  cases a <;> rfl

theorem State.resolve_none {s : State} {a : Operand} : s.resolve a = none ↔ a.isSource = false := by
  cases a <;> simp [Operand.isSource]

/-- The resolver reads the register file alone. -/
theorem State.resolve_congr {s t : State} (h : t.regs = s.regs) (a : Operand) : t.resolve a = s.resolve a := by
  cases a with
  | lit v => rfl
  | reg r => simp [State.reg_congr h r]
  | illegal k => rfl

@[simp] theorem withDst_reg (r : Fin 8) (s : State) (k : Fin 8 → Result) : withDst (.reg r) s k = k r := rfl

theorem withDst_not_reg {a : Operand} (h : a.isReg = false) (s : State) (k : Fin 8 → Result) :
    withDst a s k = .next (s.record .invalidDestination a.toWord) := by
  cases a with
  | lit v => rfl
  | reg r => simp [Operand.isReg] at h
  | illegal j => rfl

theorem withSrc_some {a : Operand} {s : State} {v : Value} (h : s.resolve a = some v) (k : Value → Result) :
    withSrc a s k = k v := by
  unfold withSrc; rw [h]

theorem withSrc_none {a : Operand} {s : State} (h : s.resolve a = none) (k : Value → Result) :
    withSrc a s k = .next (s.record .illegalOperand a.toWord) := by
  unfold withSrc; rw [h]; rfl

/-- Taking a destination goes on with its register or raises `InvalidDestination`. -/
theorem withDst_cases (a : Operand) (s : State) (k : Fin 8 → Result) :
    (∃ r, a = .reg r ∧ withDst a s k = k r) ∨
    (a.isReg = false ∧ withDst a s k = .next (s.record .invalidDestination a.toWord)) := by
  cases a with
  | lit v => exact .inr ⟨rfl, rfl⟩
  | reg r => exact .inl ⟨r, rfl, rfl⟩
  | illegal j => exact .inr ⟨rfl, rfl⟩

/-- Taking a source goes on with its value or raises `IllegalOperand`. -/
theorem withSrc_cases (a : Operand) (s : State) (k : Value → Result) :
    (∃ v, s.resolve a = some v ∧ withSrc a s k = k v) ∨
    (a.isSource = false ∧ withSrc a s k = .next (s.record .illegalOperand a.toWord)) := by
  cases h : s.resolve a with
  | some v => exact .inl ⟨v, rfl, withSrc_some h k⟩
  | none => exact .inr ⟨State.resolve_none.1 h, withSrc_none h k⟩

/-- A destination and two sources, all legal: the function of the two values is written. -/
theorem binary_values {f : Value → Value → Value} {d : Fin 8} {b c : Operand} {s : State} {vb vc : Value}
    (hb : s.resolve b = some vb) (hc : s.resolve c = some vc) :
    binary f (.reg d) b c s = .next ((s.setReg d (f vb vc)).advance 4) := by
  simp [binary, withSrc_some hb, withSrc_some hc]

/-- What the three-operand shape can do. -/
theorem binary_cases (f : Value → Value → Value) (a b c : Operand) (s : State) :
    (∃ d vb vc, a = .reg d ∧ s.resolve b = some vb ∧ s.resolve c = some vc ∧
      binary f a b c s = .next ((s.setReg d (f vb vc)).advance 4)) ∨
    (a.isReg = false ∧ binary f a b c s = .next (s.record .invalidDestination a.toWord)) ∨
    (∃ o, (o = b ∨ o = c) ∧ o.isSource = false ∧ binary f a b c s = .next (s.record .illegalOperand o.toWord)) := by
  unfold binary
  rcases withDst_cases a s (fun d => withSrc b s fun vb => withSrc c s fun vc =>
      .next ((s.setReg d (f vb vc)).advance 4)) with ⟨d, rfl, h⟩ | ⟨ha, h⟩
  · rw [h]
    rcases withSrc_cases b s (fun vb => withSrc c s fun vc => .next ((s.setReg d (f vb vc)).advance 4))
      with ⟨vb, hb, h⟩ | ⟨hb, h⟩
    · rw [h]
      rcases withSrc_cases c s (fun vc => .next ((s.setReg d (f vb vc)).advance 4)) with ⟨vc, hc, h⟩ | ⟨hc, h⟩
      · exact .inl ⟨d, vb, vc, rfl, hb, hc, h⟩
      · exact .inr (.inr ⟨c, .inr rfl, hc, h⟩)
    · exact .inr (.inr ⟨b, .inl rfl, hb, h⟩)
  · exact .inr (.inl ⟨ha, h⟩)

end Sys2Proof.Machine
end

