-- ==== Sys2Proof/Laws/Exec.lean ====
section
/-! SUPPORT. Everything the meaning of an instruction can do, said once: `exec_effect`. Frames and invariants over all
instructions are derived from it. -/

namespace Sys2Proof.Machine

/-- The states an instruction can lead to. -/
inductive Effect (s : State) : Instr → State → Prop where
  /-- A fatal fault is taken. -/
  | raised {i} (c : FaultCode) (w : Word) (hc : c ≠ .none) (fits : s.pc.toNat ≤ Config.memCap → recordFits c w) :
      Effect s i (s.record c w)
  /-- `halt`. -/
  | halted : Effect s .halt s.setHalt
  /-- `pop` on an empty stack. -/
  | popEmpty (d : Fin 8) (h : s.stk = []) : Effect s (.pop (.reg d)) s.setHalt
  /-- `ret` on an empty stack. -/
  | retEmpty (h : s.stk = []) : Effect s .ret s.setHalt
  /-- A value is written to the destination register. -/
  | wrote {i} (d : Fin 8) (v : Value) (hd : i.dst? = some (.reg d)) (hp : ∀ a, i ≠ .pop a) (hi : ∀ a, i ≠ .in_ a) :
      Effect s i ((s.setReg d v).advance (encode i).length)
  /-- `push`. -/
  | pushed (a : Operand) (v : Value) (ha : s.resolve a = some v) : Effect s (.push a) ((s.push v).advance 2)
  /-- `pop`. -/
  | popped (d : Fin 8) (v : Value) (h : s.top? = some v) :
      Effect s (.pop (.reg d)) ((s.dropTop.setReg d v).advance 2)
  /-- `jmp`, or a taken `jt` or `jf`. -/
  | jumped {i} (v : Value) (h : (∃ a, i = .jmp a) ∨ (∃ a b, i = .jt a b) ∨ ∃ a b, i = .jf a b) :
      Effect s i (s.setPc (zext16 v))
  /-- `noop`, or a `jt` or `jf` that is not taken. -/
  | passed {i} (h : i = .noop ∨ (∃ a b, i = .jt a b) ∨ ∃ a b, i = .jf a b) :
      Effect s i (s.advance (encode i).length)
  /-- `call`. -/
  | called (a : Operand) (v : Value) (ha : s.resolve a = some v) (h : s.pc.toNat + 2 ≤ 32767) :
      Effect s (.call a) ((s.push (BitVec.ofNat 15 (s.pc.toNat + 2))).setPc (zext16 v))
  /-- `ret`. -/
  | returned (v : Value) (h : s.top? = some v) : Effect s .ret (s.dropTop.setPc (zext16 v))
  /-- `wmem`. -/
  | stored (a b : Operand) (ea v : Value) (ha : s.resolve a = some ea) (hb : s.resolve b = some v) :
      Effect s (.wmem a b) ((s.memWrite ea.toNat (zext16 v)).advance 3)
  /-- `out`. -/
  | emitted (a : Operand) (v : Value) (ha : s.resolve a = some v) : Effect s (.out a) ((s.emitChar v).advance 2)
  /-- `in` while no character is offered. -/
  | held (d : Fin 8) (h : s.inq = []) : Effect s (.in_ (.reg d)) s
  /-- `in`. -/
  | taken (d : Fin 8) (c : Value) (h : s.inq.head? = some c) :
      Effect s (.in_ (.reg d)) ((s.dropChar.setReg d c).advance 2)

theorem top?_none {s : State} : s.top? = none ↔ s.stk = [] := by
  simp [State.top?]

theorem toNat_zext16 (v : Value) : (zext16 v).toNat = v.toNat := by
  have := v.isLt
  simp only [zext16, BitVec.toNat_ofNat]; omega

/-- A destination word that is no register reference fits its fault record. -/
theorem fits_invalidDestination {a : Operand} (h : a.isReg = false) : recordFits .invalidDestination a.toWord := by
  have := Operand.isReg_iff a
  simp only [h, Bool.false_eq_true, false_iff] at this
  simp only [recordFits]; omega

/-- An illegal source word fits its fault record. -/
theorem fits_illegalOperand {a : Operand} (h : a.isSource = false) : recordFits .illegalOperand a.toWord := by
  have := Operand.isSource_iff a
  simp only [h, Bool.false_eq_true, false_iff] at this
  simp only [recordFits]; omega

/-- A divisor operand that resolves to 0 fits its fault record (R137). -/
theorem fits_divideByZero {s : State} {a : Operand} (h : s.resolve a = some 0) : recordFits .divideByZero a.toWord := by
  cases a with
  | lit v =>
    simp only [State.resolve_lit, Option.some.injEq] at h
    subst h; left; rfl
  | reg r =>
    have := r.isLt
    right; rw [Operand.toNat_toWord_reg]; omega
  | illegal k => simp at h

/-- An answer with a fault record, or the answer of the continuation. -/
theorem effect_withDst {i : Instr} {a : Operand} {s : State} {k : Fin 8 → Result}
    (h : ∀ r, a = .reg r → ∃ t, k r = .next t ∧ Effect s i t) : ∃ t, withDst a s k = .next t ∧ Effect s i t := by
  rcases withDst_cases a s k with ⟨r, rfl, e⟩ | ⟨ha, e⟩
  · rw [e]; exact h r rfl
  · exact ⟨_, e, .raised _ _ (by simp) fun _ => fits_invalidDestination ha⟩

theorem effect_withSrc {i : Instr} {a : Operand} {s : State} {k : Value → Result}
    (h : ∀ v, s.resolve a = some v → ∃ t, k v = .next t ∧ Effect s i t) : ∃ t, withSrc a s k = .next t ∧ Effect s i t := by
  rcases withSrc_cases a s k with ⟨v, hv, e⟩ | ⟨ha, e⟩
  · rw [e]; exact h v hv
  · exact ⟨_, e, .raised _ _ (by simp) fun _ => fits_illegalOperand ha⟩

theorem effect_binary {i : Instr} {f : Value → Value → Value} {a b c : Operand} {s : State}
    (hd : i.dst? = some a) (hl : (encode i).length = 4) (hp : ∀ a, i ≠ .pop a) (hi : ∀ a, i ≠ .in_ a) :
    ∃ t, binary f a b c s = .next t ∧ Effect s i t :=
  effect_withDst fun d e => effect_withSrc fun vb _ => effect_withSrc fun vc _ =>
    ⟨_, rfl, hl ▸ .wrote d _ (by rw [hd, e]) hp hi⟩

/-- Every instruction, in every state, answers a next state, and its effect is one of those listed. -/
theorem exec_effect (i : Instr) (s : State) : ∃ t, exec i s = .next t ∧ Effect s i t := by
  cases i with
  | halt => exact ⟨_, rfl, .halted⟩
  | set a b =>
    exact effect_withDst fun d e => effect_withSrc fun v _ => ⟨_, rfl, .wrote (i := .set a b) d v (by rw [e]; rfl) (by simp) (by simp)⟩
  | push a => exact effect_withSrc fun v hv => ⟨_, rfl, .pushed a v hv⟩
  | pop a =>
    refine effect_withDst fun d e => ?_
    subst e
    cases h : s.top? with
    | none => exact ⟨_, rfl, .popEmpty d (top?_none.1 h)⟩
    | some v => exact ⟨_, rfl, .popped d v h⟩
  | eq a b c => exact effect_binary rfl rfl (by simp) (by simp)
  | gt a b c => exact effect_binary rfl rfl (by simp) (by simp)
  | jmp a => exact effect_withSrc fun v _ => ⟨_, rfl, .jumped v (.inl ⟨a, rfl⟩)⟩
  | jt a b =>
    refine effect_withSrc fun va _ => effect_withSrc fun vb _ => ?_
    split
    · exact ⟨_, rfl, .jumped vb (.inr (.inl ⟨a, b, rfl⟩))⟩
    · exact ⟨_, rfl, .passed (i := .jt a b) (.inr (.inl ⟨a, b, rfl⟩))⟩
  | jf a b =>
    refine effect_withSrc fun va _ => effect_withSrc fun vb _ => ?_
    split
    · exact ⟨_, rfl, .jumped vb (.inr (.inr ⟨a, b, rfl⟩))⟩
    · exact ⟨_, rfl, .passed (i := .jf a b) (.inr (.inr ⟨a, b, rfl⟩))⟩
  | add a b c => exact effect_binary rfl rfl (by simp) (by simp)
  | mult a b c => exact effect_binary rfl rfl (by simp) (by simp)
  | mod a b c =>
    refine effect_withDst fun d e => effect_withSrc fun vb _ => effect_withSrc fun vc hc => ?_
    split
    · rename_i h0
      exact ⟨_, rfl, .raised _ _ (by simp) fun _ => fits_divideByZero (h0 ▸ hc)⟩
    · exact ⟨_, rfl, .wrote (i := .mod a b c) d _ (by rw [e]; rfl) (by simp) (by simp)⟩
  | and a b c => exact effect_binary rfl rfl (by simp) (by simp)
  | or a b c => exact effect_binary rfl rfl (by simp) (by simp)
  | not a b =>
    exact effect_withDst fun d e => effect_withSrc fun v _ => ⟨_, rfl, .wrote (i := .not a b) d _ (by rw [e]; rfl) (by simp) (by simp)⟩
  | rmem a b =>
    refine effect_withDst fun d e => effect_withSrc fun ea _ => ?_
    have hlt := ea.isLt
    cases h : s.memRead ea.toNat with
    | none =>
      refine ⟨_, rfl, .raised _ _ (by simp) fun _ => ?_⟩
      simp only [recordFits, toNat_zext16]; omega
    | some m =>
      dsimp only
      split
      · rename_i hm; exact ⟨_, rfl, .raised _ _ (by simp) fun _ => hm⟩
      · exact ⟨_, rfl, .wrote (i := .rmem a b) d _ (by rw [e]; rfl) (by simp) (by simp)⟩
  | wmem a b => exact effect_withSrc fun ea ha => effect_withSrc fun v hb => ⟨_, rfl, .stored a b ea v ha hb⟩
  | call a =>
    refine effect_withSrc fun v hv => ?_
    dsimp only
    split
    · rename_i h
      refine ⟨_, rfl, .raised _ _ (by simp) fun hpc => ?_⟩
      simp only [Config.memCap] at hpc
      simp only [recordFits, BitVec.toNat_ofNat]; omega
    · exact ⟨_, rfl, .called a v hv (by omega)⟩
  | ret =>
    show ∃ t, execRet s = .next t ∧ _
    unfold execRet
    cases h : s.top? with
    | none => exact ⟨_, rfl, .retEmpty (top?_none.1 h)⟩
    | some v => exact ⟨_, rfl, .returned v h⟩
  | out a => exact effect_withSrc fun v hv => ⟨_, rfl, .emitted a v hv⟩
  | in_ a =>
    refine effect_withDst fun d e => ?_
    subst e
    cases h : s.inq.head? with
    | none => exact ⟨_, rfl, .held d (by simpa using h)⟩
    | some c => exact ⟨_, rfl, .taken d c h⟩
  | noop => exact ⟨_, rfl, .passed (i := .noop) (.inl rfl)⟩

/-- The effect behind a next state. -/
theorem effect_of_exec {i : Instr} {s t : State} (h : exec i s = .next t) : Effect s i t := by
  obtain ⟨u, hu, he⟩ := exec_effect i s
  rw [hu] at h; cases h; exact he

end Sys2Proof.Machine
end

