-- ==== Sys2Proof/Laws/PerInstr.lean ====
section
/-! SUPPORT. One family of per-instruction laws: how many words an instruction's encoding has, and that these are one
opcode word and one word for each destination and source operand (30_encoding.md R50, R52). -/

namespace Sys2Proof.Laws.EncodeLength

/-- The encoding is an opcode word below 22 followed by the destination operand's word, if there is one, and the source
operands' words in rising position. -/
def Statement (i : Instr) : Prop :=
  ∃ w0 : Word, w0.toNat < 22 ∧ encode i = w0 :: (i.dst?.toList ++ i.sources).map Operand.toWord

theorem halt : Statement .halt :=
  ⟨0, by decide, rfl⟩

theorem set (a b : Operand) : Statement (.set a b) :=
  ⟨1, by decide, rfl⟩

theorem push (a : Operand) : Statement (.push a) :=
  ⟨2, by decide, rfl⟩

theorem pop (a : Operand) : Statement (.pop a) :=
  ⟨3, by decide, rfl⟩

theorem eq (a b c : Operand) : Statement (.eq a b c) :=
  ⟨4, by decide, rfl⟩

theorem gt (a b c : Operand) : Statement (.gt a b c) :=
  ⟨5, by decide, rfl⟩

theorem jmp (a : Operand) : Statement (.jmp a) :=
  ⟨6, by decide, rfl⟩

theorem jt (a b : Operand) : Statement (.jt a b) :=
  ⟨7, by decide, rfl⟩

theorem jf (a b : Operand) : Statement (.jf a b) :=
  ⟨8, by decide, rfl⟩

theorem add (a b c : Operand) : Statement (.add a b c) :=
  ⟨9, by decide, rfl⟩

theorem mult (a b c : Operand) : Statement (.mult a b c) :=
  ⟨10, by decide, rfl⟩

theorem mod (a b c : Operand) : Statement (.mod a b c) :=
  ⟨11, by decide, rfl⟩

theorem and (a b c : Operand) : Statement (.and a b c) :=
  ⟨12, by decide, rfl⟩

theorem or (a b c : Operand) : Statement (.or a b c) :=
  ⟨13, by decide, rfl⟩

theorem not (a b : Operand) : Statement (.not a b) :=
  ⟨14, by decide, rfl⟩

theorem rmem (a b : Operand) : Statement (.rmem a b) :=
  ⟨15, by decide, rfl⟩

theorem wmem (a b : Operand) : Statement (.wmem a b) :=
  ⟨16, by decide, rfl⟩

theorem call (a : Operand) : Statement (.call a) :=
  ⟨17, by decide, rfl⟩

theorem ret : Statement .ret :=
  ⟨18, by decide, rfl⟩

theorem out (a : Operand) : Statement (.out a) :=
  ⟨19, by decide, rfl⟩

theorem in_ (a : Operand) : Statement (.in_ a) :=
  ⟨20, by decide, rfl⟩

theorem noop : Statement .noop :=
  ⟨21, by decide, rfl⟩

end Sys2Proof.Laws.EncodeLength
end

