-- ==== Sys2Proof/Laws/Step.lean ====
section
/-! SUPPORT. What fetching and one whole step can do, said once: `fetch_raises`, `step_effect`. -/

namespace Sys2Proof.Machine

/-! ### Fetch -/

@[simp] theorem State.length_fetchWindow (s : State) : s.fetchWindow.length = min 4 (s.mlen - s.pc.toNat) := by
  simp [State.fetchWindow]

theorem State.getElem_fetchWindow (s : State) (k : Nat) (h : k < s.fetchWindow.length) :
    s.fetchWindow[k] = s.word (s.pc.toNat + k) := by
  simp [State.fetchWindow]

/-- A fault of the fetch (R71, R72): an opcode word above 21, or an operand word at the extent. -/
theorem fetch_raises {s : State} {c : FaultCode} {w : Word} (hpc : s.pc.toNat < s.mlen) (h : fetch s = .raises c w) :
    (c = .unknownOpcode ∧ w = s.word s.pc.toNat ∧ 21 < w.toNat) ∨
    (c = .memoryBounds ∧ w = BitVec.ofNat 16 s.mlen) := by
  unfold fetch at h
  split at h
  · cases h
  · rename_i w0 hd
    cases h
    obtain ⟨h1, h2⟩ := decodeWords_unknown hd
    refine .inl ⟨rfl, ?_, h1⟩
    have hlen : 0 < s.fetchWindow.length := by rw [State.length_fetchWindow]; omega
    rw [List.head?_eq_getElem?, List.getElem?_eq_getElem hlen, State.getElem_fetchWindow] at h2
    exact (Option.some.inj h2).symm
  · rename_i k hd
    cases h
    obtain ⟨h1, h2⟩ := decodeWords_truncated hd
    rw [State.length_fetchWindow] at h1
    refine .inr ⟨rfl, ?_⟩
    congr 1; omega

/-- Fetching depends on the program counter, the memory and the extent alone. -/
theorem fetch_congr {s t : State} (hp : t.pc = s.pc) (hm : t.mem = s.mem) (hl : t.mlen = s.mlen) : fetch t = fetch s := by
  simp [fetch, State.fetchWindow, State.word, hp, hm, hl]

/-! ### Status -/

theorem status_waitIn {s : State} : s.status = .waitIn ↔ CanStep s ∧ s.waiting = true := by
  unfold State.status CanStep
  by_cases h1 : s.fault = .none <;> by_cases h2 : s.halt <;> by_cases h3 : s.mlen ≤ s.pc.toNat <;>
    by_cases h4 : s.waiting <;> (simp [h1, h2, h3, h4]; try omega)

theorem status_running {s : State} : s.status = .running ↔ CanStep s ∧ s.waiting = false := by
  unfold State.status CanStep
  by_cases h1 : s.fault = .none <;> by_cases h2 : s.halt <;> by_cases h3 : s.mlen ≤ s.pc.toNat <;>
    by_cases h4 : s.waiting <;> (simp [h1, h2, h3, h4]; try omega)

/-- CHECK passes exactly when the core runs or waits (R20, R71). -/
theorem canStep_iff {s : State} : CanStep s ↔ s.status = .running ∨ s.status = .waitIn := by
  rw [status_running, status_waitIn]
  cases s.waiting <;> simp

/-- The core waits at an `in` with a register destination, and no character is pending (R20). -/
theorem waiting_iff {s : State} : s.waiting = true ↔ (∃ d, fetch s = .ok (.in_ (.reg d))) ∧ s.inq = [] := by
  unfold State.waiting
  split
  · rename_i d hd; simp [hd]
  · rename_i hn
    simp only [Bool.false_eq_true, false_iff, not_and]
    intro ⟨d, hd⟩
    exact absurd hd (hn d)

/-- The status depends on these fields alone. -/
theorem status_congr {s t : State} (hf : t.fault = s.fault) (hh : t.halt = s.halt) (hp : t.pc = s.pc)
    (hm : t.mem = s.mem) (hl : t.mlen = s.mlen) (hq : t.inq = s.inq) : t.status = s.status := by
  have hw : t.waiting = s.waiting := by unfold State.waiting; rw [fetch_congr hp hm hl, hq]
  unfold State.status; rw [hf, hh, hp, hl, hw]

/-! ### The step -/

/-- The states one step can lead to. -/
inductive StepEffect (s : State) : State → Prop where
  /-- The instruction at the program counter runs. -/
  | executed {t} (i : Instr) (hs : s.status = .running) (hf : fetch s = .ok i) (he : exec i s = .next t)
      (eff : Effect s i t) : StepEffect s t
  /-- Fetching raises a fault. -/
  | fetchFault (c : FaultCode) (w : Word) (hs : s.status = .running) (hf : fetch s = .raises c w) :
      StepEffect s (s.record c w)
  /-- The core is held at its `in`, and the host has no move. -/
  | held (hs : s.status = .waitIn) (hc : s.chan = .collecting) (hh : s.host = []) : StepEffect s s
  /-- The channel interprets a completed line. -/
  | dispatched (hs : s.status = .waitIn) (hc : s.chan = .dispatching) : StepEffect s s.dispatchLine
  /-- The channel reads a character. -/
  | keyed (c : Value) (moves : List HostMove) (hs : s.status = .waitIn) (hc : s.chan = .collecting)
      (hh : s.host = .key c :: moves) : StepEffect s (s.dropMove.typeKey c)
  /-- The host uses the debug port. -/
  | debugged (op : DebugOp) (moves : List HostMove) (hs : s.status = .waitIn) (hc : s.chan = .collecting)
      (hh : s.host = .debug op :: moves) : StepEffect s (s.dropMove.debug op)
  /-- The host loads an image. -/
  | loaded (img : List Word) (ps : List (Fin 8 × Value)) (moves : List HostMove) (hs : s.status ≠ .running)
      (hh : s.host = .load img ps :: moves) (hl : img.length ≤ Config.memCap) :
      StepEffect s ((State.loaded img moves).preset ps)
  /-- The host reads a stopped core. -/
  | readStopped (q : DebugRead) (moves : List HostMove) (hs : ¬ CanStep s) (hh : s.host = .debug (.read q) :: moves) :
      StepEffect s s.dropMove

theorem hostLoad_next {img : List Word} {ps : List (Fin 8 × Value)} {moves : List HostMove} {t : State}
    (h : hostLoad img ps moves = .next t) : img.length ≤ Config.memCap ∧ t = (State.loaded img moves).preset ps := by
  unfold hostLoad at h
  split at h
  · cases h
  · cases h; exact ⟨by omega, rfl⟩

theorem stoppedStep_effect {f : Fault} {s t : State} (hs : ¬ CanStep s) (h : stoppedStep f s = .next t) :
    StepEffect s t := by
  unfold stoppedStep at h
  split at h
  · rename_i hh
    obtain ⟨hl, rfl⟩ := hostLoad_next h
    exact .loaded _ _ _ (fun e => hs (canStep_iff.2 (.inl e))) hh hl
  · rename_i hh
    cases h
    exact .readStopped _ _ hs hh
  · cases h

/-- The effect behind a next state of `step`. -/
theorem step_effect {s t : State} (h : step s = .next t) : StepEffect s t := by
  have stopped : ∀ {f}, s.status ≠ .running → s.status ≠ .waitIn → stoppedStep f s = .next t → StepEffect s t :=
    fun h1 h2 h3 => stoppedStep_effect (fun hc => (canStep_iff.1 hc).elim h1 h2) h3
  unfold step at h
  cases hst : s.status with
  | faulted => simp only [environmentStep, hst] at h; exact stopped (by simp [hst]) (by simp [hst]) h
  | halted => simp only [environmentStep, hst] at h; exact stopped (by simp [hst]) (by simp [hst]) h
  | ranOff => simp only [environmentStep, hst] at h; exact stopped (by simp [hst]) (by simp [hst]) h
  | running =>
    simp only [environmentStep, hst] at h
    split at h
    · rename_i i hf; exact .executed i hst hf h (effect_of_exec h)
    · rename_i c w hf; cases h; exact .fetchFault c w hst hf
  | waitIn =>
    simp only [environmentStep, hst] at h
    cases hc : s.chan with
    | dispatching => simp only [hc] at h; cases h; exact .dispatched hst hc
    | collecting =>
      cases hh : s.host with
      | cons m moves =>
        simp only [hc, hh] at h
        cases m with
        | key c => cases h; exact .keyed c moves hst hc hh
        | debug op => cases h; exact .debugged op moves hst hc hh
        | load img ps =>
          simp only [waitMove, hh, List.tail_cons] at h
          obtain ⟨hl, rfl⟩ := hostLoad_next h
          exact .loaded _ _ _ (by simp [hst]) hh hl
      | nil =>
        obtain ⟨⟨d, hd⟩, hq⟩ := waiting_iff.1 (status_waitIn.1 hst).2
        simp only [hc, hh, hd, exec, execIn, withDst_reg, hq, List.head?_nil] at h
        cases h
        exact .held hst hc hh

/-! ### Runs of the machine behind Host/Core.lean -/

@[simp] theorem run_zero (s : State) : Host.Core.run Sys2Proof.core 0 s = .next s := rfl

/-- A run of any machine takes the first step and goes on. -/
theorem core_run_succ (M : Host.Core) {s t : M.State} (h : M.step s = .next t) (k : Nat) : M.run (k + 1) s = M.run k t := by
  simp only [Host.Core.run, h]

/-- So does a run of this machine. -/
theorem run_succ {s t : State} (h : step s = .next t) (k : Nat) :
    Host.Core.run Sys2Proof.core (k + 1) s = Host.Core.run Sys2Proof.core k t :=
  core_run_succ Sys2Proof.core h k

end Sys2Proof.Machine
end

