-- ==== Sys2Proof/Tests/Slice0.lean ====
section
/-! SUPPORT. The model's own tests: ill-formed terms, one word of each instruction written out from its encoding, single
steps with the results of spec/95_test_vectors.md, and for each statement with hypotheses a state that meets them. -/

namespace Sys2Proof.Tests

open Sys2Proof Sys2Proof.Machine

/-! ### Helpers -/

/-- The start state of 95_test_vectors.md section 2: the words at address 100, `mlen = 200`. -/
def at100 (ws : List Word) : State :=
  { State.reset with pc := 100, mem := Memory.writeWords [] 100 ws, mlen := 200 }

/-- The reset state with an image, and with moves of the host still to come. -/
def at0 (img : List Word) (moves : List HostMove := []) : State :=
  State.loaded img moves

/-- A view of an answer that is a next state. -/
def ofNext {α : Type} (f : State → α) : Result → Option α
  | .next t => some (f t)
  | .fault _ => none
  | .refused _ => none

/-- A view of the state after one step. -/
def after {α : Type} (f : State → α) (s : State) : Option α :=
  ofNext f (step s)

/-- The view of a fault row: code, information word, program counter, halt flag. -/
def record (t : State) : FaultCode × Word × Word × Bool :=
  (t.fault, t.finfo, t.pc, t.halt)

/-- The reference to register 0 to 7. -/
def r (n : Fin 8) : Operand := .reg n

/-- A literal operand. -/
def lit (v : Value) : Operand := .lit v

/-- The least and the greatest illegal operand, words 32776 and 65535. -/
def illegalLeast : Operand := .illegal 0
@[inherit_doc illegalLeast] def illegalGreatest : Operand := .illegal 32759

/-! ### Well-formedness (30_encoding.md R54, 40_execution_cycle.md R73) -/

theorem test_wf_refuses_literal_destination :
    (Instr.set (lit 5) (lit 7)).wf = false ∧ (Instr.pop (lit 32767)).wf = false := by decide +kernel

theorem test_wf_refuses_illegal_destination :
    (Instr.set illegalLeast (lit 7)).wf = false ∧ (Instr.in_ illegalGreatest).wf = false := by decide +kernel

theorem test_wf_refuses_illegal_only_source :
    (Instr.push illegalLeast).wf = false ∧ (Instr.not (r 0) illegalGreatest).wf = false := by decide +kernel

theorem test_wf_refuses_illegal_first_source :
    (Instr.eq (r 0) illegalLeast (lit 1)).wf = false ∧ (Instr.wmem illegalLeast (lit 1)).wf = false :=
  by decide +kernel

theorem test_wf_refuses_illegal_second_source :
    (Instr.add (r 0) (lit 1) illegalLeast).wf = false ∧ (Instr.jt (lit 0) illegalGreatest).wf = false :=
  by decide +kernel

theorem test_wf_accepts_registers_and_literals :
    (Instr.add (r 7) (lit 32767) (r 0)).wf = true ∧ (Instr.wmem (lit 0) (r 7)).wf = true ∧ Instr.ret.wf = true :=
  by decide +kernel

/-! ### Decoding: the words of 30_encoding.md R56, R53, written out bit by bit -/

theorem test_decode_halt :
    decodeWords [0b0000000000000000] =
      .ok .halt [] := by rfl

theorem test_decode_set :
    decodeWords [0b0000000000000001, 0b1000000000000000, 0b1000000000000111] =
      .ok (.set (r 0) (r 7)) [] := by rfl

theorem test_decode_push :
    decodeWords [0b0000000000000010, 0b0000000000000000] =
      .ok (.push (lit 0)) [] := by rfl

theorem test_decode_pop :
    decodeWords [0b0000000000000011, 0b1000000000000010] =
      .ok (.pop (r 2)) [] := by rfl

theorem test_decode_eq :
    decodeWords [0b0000000000000100, 0b1000000000000001, 0b0000000100101100, 0b1000000000000100] =
      .ok (.eq (r 1) (lit 300) (r 4)) [] := by rfl

theorem test_decode_gt :
    decodeWords [0b0000000000000101, 0b1000000000000000, 0b1000000000000111, 0b0000000000000000] =
      .ok (.gt (r 0) (r 7) (lit 0)) [] := by rfl

theorem test_decode_jmp :
    decodeWords [0b0000000000000110, 0b0111111111111111] =
      .ok (.jmp (lit 32767)) [] := by rfl

theorem test_decode_jt :
    decodeWords [0b0000000000000111, 0b1000000000000010, 0b0000000000000101] =
      .ok (.jt (r 2) (lit 5)) [] := by rfl

theorem test_decode_jf :
    decodeWords [0b0000000000001000, 0b1000000000000001, 0b0000000100101100] =
      .ok (.jf (r 1) (lit 300)) [] := by rfl

theorem test_decode_add :
    decodeWords [0b0000000000001001, 0b1000000000000100, 0b1000000000000000, 0b1000000000000111] =
      .ok (.add (r 4) (r 0) (r 7)) [] := by rfl

theorem test_decode_mult :
    decodeWords [0b0000000000001010, 0b1000000000000010, 0b0000000000000101, 0b1000000000000001] =
      .ok (.mult (r 2) (lit 5) (r 1)) [] := by rfl

theorem test_decode_mod :
    decodeWords [0b0000000000001011, 0b1000000000000100, 0b1000000000000000, 0b1000000000000111] =
      .ok (.mod (r 4) (r 0) (r 7)) [] := by rfl

theorem test_decode_and :
    decodeWords [0b0000000000001100, 0b1000000000000010, 0b0000000000000101, 0b1000000000000001] =
      .ok (.and (r 2) (lit 5) (r 1)) [] := by rfl

theorem test_decode_or :
    decodeWords [0b0000000000001101, 0b1000000000000100, 0b1000000000000000, 0b1000000000000111] =
      .ok (.or (r 4) (r 0) (r 7)) [] := by rfl

theorem test_decode_not :
    decodeWords [0b0000000000001110, 0b1000000000000010, 0b0000000000000101] =
      .ok (.not (r 2) (lit 5)) [] := by rfl

theorem test_decode_rmem :
    decodeWords [0b0000000000001111, 0b1000000000000001, 0b0000000100101100] =
      .ok (.rmem (r 1) (lit 300)) [] := by rfl

theorem test_decode_wmem :
    decodeWords [0b0000000000010000, 0b1000000000000100, 0b1000000000000000] =
      .ok (.wmem (r 4) (r 0)) [] := by rfl

theorem test_decode_call :
    decodeWords [0b0000000000010001, 0b1000000000000111] =
      .ok (.call (r 7)) [] := by rfl

theorem test_decode_ret :
    decodeWords [0b0000000000010010] =
      .ok .ret [] := by rfl

theorem test_decode_out :
    decodeWords [0b0000000000010011, 0b0000000000000000] =
      .ok (.out (lit 0)) [] := by rfl

theorem test_decode_in :
    decodeWords [0b0000000000010100, 0b1000000000000010] =
      .ok (.in_ (r 2)) [] := by rfl

theorem test_decode_noop :
    decodeWords [0b0000000000010101] =
      .ok .noop [] := by rfl

theorem test_decode_illegal_operands :
    decodeWords [2, 32776] = .ok (.push illegalLeast) [] ∧ decodeWords [2, 65535] = .ok (.push illegalGreatest) [] :=
  ⟨by rfl, by rfl⟩

theorem test_decode_refuses_reserved_opcodes :
    decodeWords [22, 0, 0, 0] = .unknownOpcode 22 ∧ decodeWords [65535] = .unknownOpcode 65535 ∧
    decodeWords [256] = .unknownOpcode 256 := ⟨by rfl, by rfl, by rfl⟩

theorem test_decode_refuses_short_sequences :
    decodeWords [] = .truncated 0 ∧ decodeWords [9, 32768, 1] = .truncated 3 := ⟨by rfl, by rfl⟩

/-- 95_test_vectors.md section 1, R35 and R36. -/
theorem test_image_bytes :
    wordsOfBytes [0x09, 0x00, 0x00, 0x80, 0x01, 0x80, 0x04, 0x00] = [9, 32768, 32769, 4] ∧
    wordsOfBytes [0x15, 0x00, 0x15, 0x00, 0xFF] = [21, 21] := by decide +kernel

/-! ### Single steps (95_test_vectors.md section 2) -/

theorem test_set_literal :
    after (fun t => (t.reg 1, t.pc)) (at100 [1, 32769, 5]) = some (5, 103) := by decide +kernel

theorem test_set_register :
    after (fun t => (t.reg 0, t.reg 7, t.pc)) ((at100 [1, 32768, 32775]).setReg 7 9) = some (9, 9, 103) :=
  by decide +kernel

theorem test_push_onto_stack :
    after (fun t => (t.stk, t.pc)) ({ (at100 [2, 32768]).setReg 0 32767 with stk := [1] }) = some ([1, 32767], 102) :=
  by decide +kernel

theorem test_pop_takes_top_or_halts :
    after (fun t => (t.reg 2, t.stk, t.pc)) ({ at100 [3, 32770] with stk := [3, 7] }) = some (7, [3], 102) ∧
    after (fun t => record t) (at100 [3, 32770]) = some (.none, 0, 100, true) := by decide +kernel

theorem test_eq_equal :
    after (fun t => (t.reg 0, t.pc)) ((at100 [4, 32768, 32769, 5]).setReg 1 5) = some (1, 104) := by decide +kernel

theorem test_eq_unequal :
    after (fun t => t.reg 0) ((at100 [4, 32768, 5, 6]).setReg 0 9) = some 0 := by decide +kernel

theorem test_gt_unsigned :
    after (fun t => (t.reg 0, t.pc)) (at100 [5, 32768, 32767, 0]) = some (1, 104) := by decide +kernel

theorem test_gt_equal :
    after (fun t => t.reg 0) ((at100 [5, 32768, 5, 5]).setReg 0 9) = some 0 := by decide +kernel

theorem test_jmp_register :
    after (fun t => (t.pc, t.status)) ((at100 [6, 32768]).setReg 0 12) = some (12, Status.running) :=
  by decide +kernel

theorem test_jmp_off_extent :
    after (fun t => (t.pc, t.status)) (at100 [6, 32767]) = some (32767, Status.ranOff) := by decide +kernel

theorem test_jt_taken_or_not :
    after (fun t => t.pc) ((at100 [7, 32769, 6]).setReg 1 4) = some 6 ∧
    after (fun t => t.pc) (at100 [7, 32769, 6]) = some 103 := by decide +kernel

theorem test_jf_taken :
    after (fun t => t.pc) (at100 [8, 32769, 30]) = some 30 := by decide +kernel

theorem test_jf_not_taken :
    after (fun t => t.pc) ((at100 [8, 32769, 30]).setReg 1 9) = some 103 := by decide +kernel

theorem test_add_wraps :
    after (fun t => (t.reg 0, t.pc)) ((at100 [9, 32768, 32768, 32768]).setReg 0 20000) = some (7232, 104) ∧
    after (fun t => t.reg 1) (at100 [9, 32769, 32769, 32767]) = some 32767 := by decide +kernel

theorem test_mult_wraps :
    after (fun t => (t.reg 0, t.pc)) (at100 [10, 32768, 181, 182]) = some (174, 104) := by decide +kernel

theorem test_mult_greatest :
    after (fun t => t.reg 0) (at100 [10, 32768, 32767, 32767]) = some 1 := by decide +kernel

theorem test_mod_remainder :
    after (fun t => (t.reg 0, t.pc)) (at100 [11, 32768, 7, 3]) = some (1, 104) := by decide +kernel

theorem test_mod_by_zero :
    after (fun t => (t.fault, t.finfo, t.reg 0, t.pc)) (at100 [11, 32768, 7, 32769]) =
      some (.divideByZero, 32769, 0, 100) := by decide +kernel

theorem test_and_bits :
    after (fun t => (t.reg 0, t.pc)) (at100 [12, 32768, 12, 10]) = some (8, 104) := by decide +kernel

theorem test_or_bits :
    after (fun t => (t.reg 0, t.pc)) (at100 [13, 32768, 21845, 10922]) = some (32767, 104) := by decide +kernel

theorem test_not_bits :
    after (fun t => (t.reg 0, t.pc)) ((at100 [14, 32768, 32768]).setReg 0 7232) = some (25535, 103) :=
  by decide +kernel

theorem test_rmem_own_literal :
    after (fun t => (t.reg 0, t.pc)) (at100 [15, 32768, 102]) = some (102, 103) := by decide +kernel

theorem test_rmem_of_register_code :
    after (fun t => record t) (at100 [15, 32768, 101]) = some (.valueRange, 32768, 100, false) := by decide +kernel

theorem test_wmem_grows_extent :
    after (fun t => (t.word 300, t.mlen, t.word 250, t.pc)) (at100 [16, 300, 1]) = some (1, 301, 0, 103) :=
  by decide +kernel

theorem test_wmem_own_opcode :
    after (fun t => (t.word 100, t.mlen, t.pc)) (at100 [16, 100, 21]) = some (21, 200, 103) := by decide +kernel

theorem test_call_pushes_return :
    after (fun t => (t.stk, t.pc)) ({ at100 [17, 8] with stk := [7] }) = some ([7, 102], 8) := by decide +kernel

theorem test_call_at_top_of_memory :
    after record { State.reset with pc := 32766, mem := Memory.writeWords [] 32766 [17, 0], mlen := 32768 } =
      some (.valueRange, 32768, 32766, false) := by decide +kernel

theorem test_ret_pops_target :
    after (fun t => (t.pc, t.stk)) ({ at100 [18] with stk := [7, 4] }) = some (4, [7]) := by decide +kernel

theorem test_ret_empty_halts :
    after (fun t => record t) (at100 [18]) = some (.none, 0, 100, true) := by decide +kernel

theorem test_out_code :
    after (fun t => (t.out, t.outAcc, t.outLines, t.pc)) (at100 [19, 65]) = some ([65], [65], [], 102) :=
  by decide +kernel

theorem test_out_newline :
    after (fun t => (t.out, t.outAcc, t.outLines)) ({ (at100 [19, 32768]).setReg 0 10 with out := [65, 66], outAcc := [65, 66] }) =
      some ([65, 66, 10], [], [[65, 66]]) := by decide +kernel

theorem test_in_takes_character_or_is_held :
    after (fun t => (t.reg 0, t.inq, t.pc)) ({ at100 [20, 32768] with inq := [120, 10] }) = some (120, [10], 102) ∧
    after (fun t => (t.reg 0, t.pc, t.status)) (at100 [20, 32768]) = some (0, 100, Status.waitIn) :=
  by decide +kernel

theorem test_halt_sets_flag :
    after (fun t => record t) (at100 [0]) = some (.none, 0, 100, true) := by decide +kernel

theorem test_noop_advances :
    after (fun t => (t.pc, t.status)) (at100 [21]) = some (101, Status.running) := by decide +kernel

/-! ### Faults (95_test_vectors.md sections 2.1 and 3, P7) -/

theorem test_literal_destination :
    after (fun t => record t) (at100 [14, 5, 7]) = some (.invalidDestination, 5, 100, false) := by decide +kernel

theorem test_destination_before_sources :
    after (fun t => record t) (at100 [12, 5, 40000, 40001]) = some (.invalidDestination, 5, 100, false) :=
  by decide +kernel

theorem test_least_bad_source :
    after (fun t => record t) (at100 [13, 32768, 40000, 40001]) = some (.illegalOperand, 40000, 100, false) :=
  by decide +kernel

theorem test_unused_target_checked :
    after (fun t => record t) (at100 [7, 0, 40000]) = some (.illegalOperand, 40000, 100, false) := by decide +kernel

theorem test_unknown_opcode :
    after (fun t => record t) (at100 [65535]) = some (.unknownOpcode, 65535, 100, false) := by decide +kernel

theorem test_operand_beyond_extent :
    after record (at0 [9, 32768, 1]) = some (.memoryBounds, 3, 0, false) := by decide +kernel

theorem test_pop_literal_on_empty_stack :
    after (fun t => record t) (at100 [3, 5]) = some (.invalidDestination, 5, 100, false) := by decide +kernel

theorem test_in_literal_takes_nothing :
    after (fun t => (t.fault, t.finfo, t.inq)) ({ at100 [20, 5] with inq := [120] }) =
      some (.invalidDestination, 5, [120]) := by decide +kernel

/-- 95_test_vectors.md P1 step 1, the host having preset register 1 (S7). -/
theorem test_self_test_first_step :
    after (fun t => (t.reg 0, t.pc)) ((at0 Config.selfTestImage).preset [(1, 65)]) = some (69, 4) := by decide +kernel

/-! ### The table word and the fetch place -/

theorem test_table_word_noop :
    decodeTableWord 16 21 = some .noop ∧ decodeTableWord 16 22 = none := ⟨by rfl, by rfl⟩

theorem test_fetch_word_runs_first :
    after (fun t => (t.fault, t.finfo, t.pc)) (State.reset.withFetchWord 64 (1 + 32768 * 2 ^ 16 + 40000 * 2 ^ 32)) =
      some (.illegalOperand, 40000, 0) := by decide +kernel

/-! ### Lines of the channel (95_test_vectors.md S9, S10, P6) -/

/-- The core waiting at `in r0`, with the moves of the host still to come. -/
def waitingAt0 (moves : List HostMove) : State := at0 [20, 32768, 19, 32768] moves

/-- `!setreg 3 002A`. -/
def setregLine : Line := [33, 115, 101, 116, 114, 101, 103, 32, 51, 32, 48, 48, 50, 65]

/-- `!poke 10 1 2 3`, base 16. -/
def pokeLine : Line := [33, 112, 111, 107, 101, 32, 49, 48, 32, 49, 32, 50, 32, 51]

/-- `!poke 7FFE 1 2 3`, base 16: the last word passes address 32767. -/
def pokeEndLine : Line := [33, 112, 111, 107, 101, 32, 55, 70, 70, 69, 32, 49, 32, 50, 32, 51]

theorem test_setreg_line :
    commandOp setregLine = some (.writeReg 3 42) := by rfl

theorem test_poke_line :
    commandOp pokeLine = some (.writeMem 16 [1, 2, 3]) := by rfl

theorem test_reserved_by_first_token :
    isReserved setregLine = true ∧ isReserved [33, 104, 101, 108, 112, 109, 101] = false := by decide +kernel

theorem test_poke_then_peek :
    let t := (waitingAt0 []).debug (.writeMem 10 [7, 8, 9])
    debugRead (.memory 10) t = .word 7 ∧ debugRead (.memory 12) t = .word 9 ∧ debugRead (.memory 13) t = .outOfRange :=
  by decide +kernel

/-! ### Witnesses: states that meet the hypotheses of the statements, clause by clause, at the ends of the ranges -/

/-- The first `k` words of an instruction as the whole image. -/
def cutShort (i : Instr) (k : Nat) : State := at0 ((encode i).take k)

/-- For every instruction with operands and every operand position `k`, the operand word at `k` can be the one beyond the
extent (first clause of `CommonFaults`). -/
theorem witness_common_faults_fetch (i : Instr) (k : Nat) (h0 : 0 < k) (hk : k < (encode i).length) :
    CanStep (cutShort i k) ∧ WordsAtPc (cutShort i k) ((encode i).take k) ∧
      (cutShort i k).pc.toNat + k = (cutShort i k).mlen := by
  have hl : ((encode i).take k).length = k := by simp; omega
  refine ⟨⟨rfl, rfl, ?_⟩, fun j hj => ⟨?_, ?_⟩, ?_⟩
  · show 0 < ((encode i).take k).length
    omega
  · show 0 + j < ((encode i).take k).length
    omega
  · show (Memory.writeWords [] 0 ((encode i).take k)).readWord (0 + j) = ((encode i).take k)[j]
    rw [Memory.readWord_writeWords]
    simp only [Nat.zero_add, Nat.zero_le, Nat.sub_zero, true_and]
    have hj' : j < (encode i).length := by omega
    have hjk : j < k := hl ▸ hj
    simp [hj', hjk]
  · show 0 + k = ((encode i).take k).length
    omega

theorem witness_common_faults_exist :
    0 < 1 ∧ 1 < (encode (.push (lit 0))).length ∧ 3 < (encode (.add (r 0) (lit 0) (lit 1))).length :=
  by decide +kernel

/-- Second clause of `CommonFaults`: a destination that is no register reference, for each instruction that has one. -/
theorem witness_common_faults_destination :
    ∀ a ∈ [lit 0, lit 32767, illegalLeast, illegalGreatest], a.isReg = false ∧
      ∀ i ∈ [Instr.set a (lit 0),
        Instr.pop a,
        Instr.eq a (lit 0) (r 1),
        Instr.gt a (lit 0) (r 1),
        Instr.add a (lit 0) (r 1),
        Instr.mult a (lit 0) (r 1),
        Instr.mod a (lit 0) (r 1),
        Instr.and a (lit 0) (r 1),
        Instr.or a (lit 0) (r 1),
        Instr.not a (r 1),
        Instr.rmem a (lit 0),
        Instr.in_ a],
        i.dst? = some a := by
  intro a h
  fin_cases h <;> exact ⟨by decide +kernel, by decide +kernel⟩

/-- Third clause of `CommonFaults`: an illegal source at each position, the destination and the sources before it being legal. -/
theorem witness_common_faults_source :
    ∀ o ∈ [illegalLeast, illegalGreatest], o.isSource = false ∧
      ∀ p ∈ [(Instr.set (r 0) o, [], []),
        (Instr.push o, [], []),
        (Instr.eq (r 0) o (lit 1), [], [lit 1]),
        (Instr.eq (r 0) (lit 1) o, [lit 1], []),
        (Instr.gt (r 0) o (lit 1), [], [lit 1]),
        (Instr.gt (r 0) (r 7) o, [r 7], []),
        (Instr.jmp o, [], []),
        (Instr.jt o (lit 1), [], [lit 1]),
        (Instr.jt (lit 0) o, [lit 0], []),
        (Instr.jf o (lit 1), [], [lit 1]),
        (Instr.jf (lit 1) o, [lit 1], []),
        (Instr.add (r 0) o (lit 1), [], [lit 1]),
        (Instr.add (r 0) (lit 1) o, [lit 1], []),
        (Instr.mult (r 0) o (lit 1), [], [lit 1]),
        (Instr.mult (r 0) (lit 1) o, [lit 1], []),
        (Instr.mod (r 0) o (lit 1), [], [lit 1]),
        (Instr.mod (r 0) (lit 1) o, [lit 1], []),
        (Instr.and (r 0) o (lit 1), [], [lit 1]),
        (Instr.and (r 0) (lit 1) o, [lit 1], []),
        (Instr.or (r 0) o (lit 1), [], [lit 1]),
        (Instr.or (r 0) (lit 1) o, [lit 1], []),
        (Instr.not (r 0) o, [], []),
        (Instr.rmem (r 0) o, [], []),
        (Instr.wmem o (lit 1), [], [lit 1]),
        (Instr.wmem (lit 1) o, [lit 1], []),
        (Instr.call o, [], []),
        (Instr.out o, [], [])],
        p.1.sources = p.2.1 ++ o :: p.2.2 ∧ p.2.1.all Operand.isSource = true ∧
          (p.1.dst? = none ∨ p.1.dst? = some (r 0)) := by
  intro a h
  fin_cases h <;> exact ⟨by decide +kernel, by decide +kernel⟩

/-- The ends of the classes: an opcode above 21, and each of the two outcomes of the operand count. -/
theorem witness_OpcodeWordAloneDecidesLength :
    21 < (22 : Word).toNat ∧ operandCounts[(21 : Word).toNat]? =
      some 0 ∧ operandCounts[(22 : Word).toNat]? = none ∧
    operandCounts[(9 : Word).toNat]? =
      some 3 ∧ 3 ≤ [32768, 1, (2 : Word)].length ∧ [32768, (1 : Word)].length < 3 := by decide +kernel

theorem witness_EncodeGivesBackDecodedWords :
    decodeWords [9, 32768, 32776, 65535, 21] = .ok (.add (r 0) illegalLeast illegalGreatest) [21] := by rfl

/-- The ends of the three classes. -/
theorem witness_OperandWordsFallIntoThreeClasses :
    (0 : Word).toNat ≤ 32767 ∧ (32767 : Word).toNat ≤ 32767 ∧ 32768 ≤ (32768 : Word).toNat ∧ (32775 : Word).toNat ≤ 32775 ∧
    32776 ≤ (32776 : Word).toNat ∧ 32776 ≤ (65535 : Word).toNat ∧
    (32767 : Word).getLsbD 15 = false ∧ (32775 : Word).getLsbD 15 = true ∧ (32775 : Word).extractLsb' 3 12 = 0 ∧
    (32776 : Word).getLsbD 15 = true ∧ (32776 : Word).extractLsb' 3 12 ≠ 0 := by decide +kernel

theorem witness_ResolverSelectsLiteralOrRegister :
    (32768 : Word).toNat = 32768 + (0 : Fin 8).val ∧ (32775 : Word).toNat = 32768 + (7 : Fin 8).val ∧
    (32767 : Word).toNat ≤ 32767 ∧ 32776 ≤ (32776 : Word).toNat := by decide +kernel

/-- A step, with words at the program counter that end just at the extent; and an `in` that has its character. -/
theorem witness_StepRunsTheInstructionAtPc :
    (let s := at0 [9, 32768, 32769, 4]
     CanStep s ∧ WordsAtPc s [9, 32768, 32769, 4] ∧ decodeWords [9, 32768, 32769, 4] = .ok (.add (r 0) (r 1) (lit 4)) []) ∧
    (let s := { at0 [20, 32775] [.key 65] with inq := [120] }
     CanStep s ∧ WordsAtPc s [20, 32775] ∧ decodeWords [20, 32775] = .ok (.in_ (r 7)) [] ∧ s.inq ≠ []) ∧
    (let s := at0 [20, 32775]
     CanStep s ∧ WordsAtPc s [20, 32775] ∧ s.inq = [] ∧ ¬ (s.chan = .dispatching ∨ s.host ≠ [])) := by
  unfold CanStep WordsAtPc
  exact ⟨by decide +kernel, by decide +kernel, by decide +kernel⟩

theorem witness_UnknownOpcodeIsAFatalFault :
    (let s := at0 [22]; CanStep s ∧ 21 < (s.word s.pc.toNat).toNat) ∧
    (let s := at0 [65535]; CanStep s ∧ 21 < (s.word s.pc.toNat).toNat) := by
  unfold CanStep
  decide +kernel

/-- The three ways to be stopped, the host having nothing to do or moves that a stopped core does not admit. -/
theorem witness_StoppedCoreTakesNoStep :
    (∀ img ps moves, (at0 [21]).host ≠ .load img ps :: moves) ∧ (∀ q moves, (at0 [21]).host ≠ .debug (.read q) :: moves) ∧
    (∀ img ps moves, (at0 [21] [.key 65]).host ≠ .load img ps :: moves) ∧
    ((at0 [21]).record .illegalOperand 40000).fault ≠ .none ∧ ((at0 [21]).fault = .none ∧ (at0 [21]).setHalt.halt = true) ∧
    (let s := (at0 [21]).advance 1; s.fault = .none ∧ s.halt = false ∧ s.mlen ≤ s.pc.toNat) := by
  refine ⟨?_, ?_, ?_, by decide +kernel, by decide +kernel, by decide +kernel⟩ <;> intros <;> simp [at0, State.loaded]

/-- A target just at the extent, by each of the five. -/
theorem witness_JumpBeyondExtentRunsOff :
    let s := { at0 [6, 2] with stk := [7, 2] }
    s.fault = .none ∧ s.halt = false ∧ s.mlen ≤ (2 : Value).toNat ∧ s.resolve (lit 2) = some 2 ∧
      s.resolve (lit 1) =
      some 1 ∧ (1 : Value) ≠ 0 ∧ s.resolve (r 0) =
      some 0 ∧ s.pc.toNat + 2 ≤ 32767 ∧ s.stk = [7] ++ [2] := by decide +kernel

/-- Source values at both ends, from a literal and from a register; the destination may be the source. -/
theorem witness_SetRule :
    let s := { at0 [] with regs := Vector.replicate 8 0 |>.set 7 32767 }
    r 7 = .reg 7 ∧ s.resolve (r 7) =
      some 32767 ∧ s.resolve (lit 32767) =
      some 32767 ∧ s.resolve (lit 0) =
      some 0 := by
  exact ⟨rfl, by decide +kernel⟩

theorem witness_PushRule :
    (at0 []).resolve (lit 32767) = some 32767 ∧ (at0 []).resolve (r 0) = some 0 ∧ r 0 = .reg 0 := by
  exact ⟨rfl, rfl, rfl⟩

theorem witness_PopRule :
    r 7 = .reg 7 ∧ (at0 []).stk = [] ∧ (let s := { at0 [] with stk := [7] }; s.stk = [] ++ [7]) := by decide +kernel

theorem witness_CompareRules :
    r 0 = .reg 0 ∧ (at0 []).resolve (r 0) =
      some 0 ∧ (at0 []).resolve (lit 32767) =
      some 32767 ∧ (0 : Value) ≠ 32767 ∧
    (0 : Value).toNat < (32767 : Value).toNat := by
  exact ⟨rfl, rfl, rfl, by decide, by decide⟩

theorem witness_AddMultRules :
    r 0 = .reg 0 ∧ (at0 []).resolve (lit 32767) = some 32767 ∧ (at0 []).resolve (lit 1) = some 1 := by
  exact ⟨rfl, rfl, rfl⟩

theorem witness_ModRule :
    r 0 = .reg 0 ∧ (at0 []).resolve (lit 7) =
      some 7 ∧ (at0 []).resolve (r 1) =
      some 0 ∧ (at0 []).resolve (lit 1) =
      some 1 ∧
    (1 : Value) ≠ 0 := by
  exact ⟨rfl, rfl, rfl, rfl, by decide⟩

theorem witness_BitwiseRules :
    r 0 = .reg 0 ∧ (at0 []).resolve (lit 32767) = some 32767 ∧ (at0 []).resolve (lit 0) = some 0 := by
  exact ⟨rfl, rfl, rfl⟩

theorem witness_JmpRule :
    (at0 []).resolve (lit 32767) = some 32767 ∧ (at0 []).resolve (r 7) = some 0 := by
  exact ⟨rfl, rfl⟩

theorem witness_ConditionalJumpRules :
    (at0 []).resolve (r 1) = some 0 ∧ (at0 []).resolve (lit 1) = some 1 ∧ (at0 []).resolve (lit 32767) = some 32767 := by
  exact ⟨rfl, rfl, rfl⟩

/-- The return address at 32767, the greatest that fits, and at 32768. -/
theorem witness_CallRule :
    (let s := { at0 [] with pc := 32765 }; s.resolve (lit 0) = some 0 ∧ s.pc.toNat + 2 ≤ 32767) ∧
    (let s := { at0 [] with pc := 32766 }; s.resolve (lit 0) = some 0 ∧ 32767 < s.pc.toNat + 2) :=
  by decide +kernel

theorem witness_RetRule :
    (at0 []).stk = [] ∧ (let s := { at0 [] with stk := [32767] }; s.stk = [] ++ [32767]) ∧
    (let s := { at0 [] with pc := 32765 }; s.resolve (lit 9) = some 9 ∧ s.pc.toNat + 2 ≤ 32767) :=
  by decide +kernel

theorem witness_MemoryReadAndWriteRules :
    (at0 [21]).mlen ≤ 1 ∧ 0 < (at0 [21]).mlen := by decide +kernel

/-- Just at the extent; a cell of 32768 and a cell of 32767 just below it. -/
theorem witness_RmemRule :
    r 0 = .reg 0 ∧ (let s := at0 [32768, 32767];
      s.resolve (lit 2) = some 2 ∧ s.mlen ≤ (2 : Value).toNat ∧
      s.resolve (r 0) = some 0 ∧ (0 : Value).toNat < s.mlen ∧ 32767 < (s.word (0 : Value).toNat).toNat ∧
      s.resolve (lit 1) = some 1 ∧ (1 : Value).toNat < s.mlen ∧ (s.word (1 : Value).toNat).toNat ≤ 32767) :=
  by decide +kernel

/-- A store just below the extent, one at it, and one at the last address. -/
theorem witness_WmemRule :
    let s := at0 [16, 2, 32767]
    s.resolve (lit 2) = some 2 ∧ s.resolve (lit 3) = some 3 ∧ s.resolve (lit 32767) = some 32767 ∧
      ¬ s.mlen ≤ (2 : Value).toNat ∧ s.mlen ≤ (3 : Value).toNat ∧ s.mlen ≤ (32767 : Value).toNat :=
  by decide +kernel

/-- `wmem 3 21` and `wmem 3 22`, the next fetch being at 3. -/
theorem witness_StoreIsSeenByTheNextFetch :
    ∀ v ∈ [(21 : Value), 22, 32767], let s := at0 [16, 3, 21, 0]
    ∃ t, s.resolve (lit 3) = some 3 ∧ s.resolve (.lit v) = some v ∧ exec (.wmem (lit 3) (.lit v)) s = .next t ∧
      t.pc.toNat = (3 : Value).toNat ∧ s.fault = .none ∧ s.halt = false := by
  intro v _
  exact ⟨_, rfl, rfl, rfl, by rfl, rfl, rfl⟩

theorem witness_OutRule :
    (at0 []).resolve (lit 10) = some 10 ∧ (10 : Value) = Config.newline ∧ (at0 []).resolve (lit 11) = some 11 ∧
    (11 : Value) ≠ Config.newline := by
  exact ⟨rfl, rfl, rfl, by decide⟩

theorem witness_InTakesOneCharacterOrIsHeld :
    r 0 = .reg 0 ∧ (let s := { at0 [20, 32768] with inq := [32767] }; s.inq = 32767 :: []) ∧
    (let s := at0 [20, 32768]; s.inq = [] ∧ CanStep s ∧ WordsAtPc s (encode (.in_ (r 0)))) := by
  unfold CanStep WordsAtPc
  decide +kernel

/-- A typed line, and the empty line. -/
theorem witness_TypedLineIsArchivedAndDelivered :
    (let s := waitingAt0 ([120].map .key ++ .key Config.newline :: []);
      s.status = .waitIn ∧ s.chan = .collecting ∧ Config.newline ∉ [(120 : Value)] ∧
      s.host = [120].map .key ++ .key Config.newline :: [] ∧ isReserved (s.inAcc ++ [120]) = false) ∧
    (let s := waitingAt0 (([] : Line).map .key ++ .key Config.newline :: []);
      s.status = .waitIn ∧ s.chan = .collecting ∧ isReserved (s.inAcc ++ []) = false) := by decide +kernel

/-- `!help`, `!halt`, `!setreg 3 002A`, `!dump` and `!poke 7FFE 1 2 3`, one for each clause. -/
theorem witness_ReservedLineDrivesTheDebugPort :
    ∀ line ∈ [cmdHelp, cmdHalt, setregLine, cmdDump, pokeEndLine], let s := waitingAt0 (line.map .key ++ .key Config.newline :: [])
    s.status = .waitIn ∧ s.chan = .collecting ∧ Config.newline ∉ line ∧ s.host = line.map .key ++ .key Config.newline :: [] ∧
      isReserved (s.inAcc ++ line) = true := by
  decide +kernel

theorem witness_ReservedLineDrivesTheDebugPort_clauses :
    let acc := (waitingAt0 []).inAcc
    commandOp (acc ++ cmdHelp) = none ∧ commandOp (acc ++ cmdHalt) = some .halt ∧
      commandOp (acc ++ setregLine) =
      some (.writeReg 3 42) ∧ commandOp (acc ++ cmdDump) =
      some (.read .image) ∧
      commandOp (acc ++ pokeEndLine) = some (.writeMem 32766 [1, 2, 3]) := by
  exact ⟨rfl, rfl, rfl, rfl, rfl⟩

theorem witness_HaltNoopRules :
    (at0 []).fault = .none := rfl

theorem witness_RaisingAFaultWritesOnlyItsRecord :
    FaultCode.unknownOpcode ≠ .none ∧ FaultCode.valueRange ≠ .none := by decide +kernel

theorem witness_FaultsArePrecise :
    ∃ t, step (at0 [22]) = .next t ∧ (at0 [22]).fault = .none ∧ t.fault ≠ .none := by
  exact ⟨_, rfl, rfl, by decide +kernel⟩

/-- A halted and a faulted core that the host reads. -/
theorem witness_OnlyALoadClearsHaltAndFault :
    let h := (at0 [0] [.debug (.read .pc)]).setHalt
    let f := (at0 [22] [.debug (.read .fault)]).record .unknownOpcode 22
    (∃ t, step h = .next t ∧ h.halt = true) ∧ (∃ t, step f = .next t ∧ f.fault ≠ .none) ∧
      (∀ img ps moves, h.host ≠ .load img ps :: moves) ∧ (∀ img ps moves, f.host ≠ .load img ps :: moves) := by
  refine ⟨⟨_, rfl, rfl⟩, ⟨_, rfl, by decide +kernel⟩, ?_, ?_⟩ <;> intros <;> simp [at0, State.loaded, State.setHalt, State.record]

/-- An image loaded and not yet started meets the three invariants. -/
theorem witness_invariants (img : List Word) (moves : List HostMove) (h : img.length ≤ 32768) :
    CoreInv (at0 img moves) ∧ RecordInv (at0 img moves) ∧ ChannelInv (at0 img moves) := by
  have hk := State.loaded_keeps moves (img := img) h
  exact ⟨⟨hk.1, hk.2.1, h, Nat.zero_le _⟩, ⟨rfl, fun hf => absurd rfl hf⟩,
    ⟨rfl, by simp [at0, State.loaded, State.reset], by simp [at0, State.loaded, State.reset],
      by simp [at0, State.loaded, State.reset]⟩⟩

theorem witness_StepKeepsFaultRecordInvariant :
    CoreInv (at0 [22]) ∧ RecordInv (at0 [22]) ∧ ∃ t, step (at0 [22]) = .next t := by
  have h := witness_invariants [22] [] (by decide)
  exact ⟨h.1, h.2.1, _, rfl⟩

theorem witness_StepKeepsCoreInvariant :
    CoreInv (at0 [16, 32767, 1]) ∧ ∃ t, step (at0 [16, 32767, 1]) = .next t := by
  exact ⟨(witness_invariants _ _ (by decide)).1, _, rfl⟩

theorem witness_StepKeepsChannelInvariant :
    ChannelInv (waitingAt0 [.key 65]) ∧ ∃ t, step (waitingAt0 [.key 65]) = .next t := by
  exact ⟨(witness_invariants _ _ (by decide)).2.2, _, rfl⟩

theorem witness_OnlyTheDestinationRegisterChanges :
    ∃ t, exec (.set (r 3) (lit 7)) (at0 []) = .next t ∧ t.reg 3 ≠ (at0 []).reg 3 := by
  exact ⟨_, rfl, by decide +kernel⟩

theorem witness_OnlyWmemWritesMemory :
    (∃ t, exec .noop (at0 []) = .next t) ∧ (∀ a b, Instr.noop ≠ .wmem a b) ∧
    (∃ t, exec (.wmem (lit 0) (lit 7)) (at0 []) = .next t) ∧ (at0 []).resolve (lit 0) =
      some 0 ∧ (1 : Nat) ≠ (0 : Value).toNat := by
  exact ⟨⟨_, rfl⟩, (by intros; simp), ⟨_, rfl⟩, rfl, by decide⟩

theorem witness_StackMovesByOneCellOnly :
    let s := { at0 [] with stk := [7] }
    ∀ i ∈ [Instr.push (lit 1), .call (lit 1), .pop (r 0), .ret], ∃ t, exec i s = .next t ∧ t.stk ≠ s.stk := by
  intro s i h
  fin_cases h <;> exact ⟨_, rfl, by decide +kernel⟩

theorem witness_HaltFlagIsSetOnlyByTheseThree :
    ∀ i ∈ [Instr.halt, .pop (r 0), .ret], ∃ t, exec i (at0 []) = .next t ∧ (at0 []).halt = false ∧ t.halt = true := by
  intro i h
  fin_cases h <;> exact ⟨_, rfl, rfl, rfl⟩

theorem witness_ExtentNeverShrinks :
    (∃ t, step (at0 [16, 3, 1]) = .next t) ∧ ∀ img ps moves, (at0 [16, 3, 1]).host ≠ .load img ps :: moves := by
  refine ⟨⟨_, rfl⟩, ?_⟩
  intros
  simp [at0, State.loaded]

theorem witness_PcAdvancesPastTheInstruction :
    ∃ t, exec (.set (r 0) (lit 7)) (at0 []) = .next t ∧ t.fault = (at0 []).fault ∧ t.halt = (at0 []).halt ∧ t ≠ at0 [] ∧
      (at0 []).fault = .none ∧ (at0 []).halt = false := by
  exact ⟨_, rfl, rfl, rfl, by decide +kernel, rfl, rfl⟩

theorem witness_InputReachesProgramsThroughInAlone :
    ∀ a, Instr.noop ≠ .in_ a := by
  intros
  simp

theorem witness_HostCannotTouchARunningCore :
    (at0 [21]).status = .running := by decide +kernel

/-- One core for each operation; the memory write passes the last address. -/
theorem witness_DebugOperationsOnAWaitingCore :
    ∀ op ∈ [DebugOp.read .stack, .halt, .writeReg 7 32767, .writeMem 32766 [1, 2, 3], .writeMem 0 []],
    let s := waitingAt0 [.debug op]
    s.status = .waitIn ∧ s.chan = .collecting ∧ s.host = .debug op :: [] := by decide +kernel

theorem witness_DebugOperationsOnAWaitingCore_clauses :
    let ws : List Word := [1, 2, 3]
    (32766 : Value).toNat + 1 ≤ 32767 ∧ 1 < ws.length ∧ 32767 < (32766 : Value).toNat + 2 ∧ 32765 < (32766 : Value).toNat ∧ ws ≠ [] :=
  by decide +kernel

theorem witness_DebugReadsReportTheState :
    0 < (at0 [21]).mlen ∧ (at0 [21]).mlen ≤ 1 ∧
    (let s := (at0 [0] [.debug (.read .image)]).setHalt; ¬ CanStep s ∧ s.host = .debug (.read .image) :: []) := by
  unfold CanStep
  decide +kernel

theorem witness_ImageIsLittleEndianWords :
    let f : List Byte := [1, 2, 3, 4, 5]
    1 < (wordsOfBytes f).length ∧ 2 * 1 < f.length ∧ 2 * 1 + 1 < f.length := by decide +kernel

/-- A waiting core, a halted core, a faulted core and a core that ran off; the longest image that fits. -/
theorem witness_LoadResetsAllState :
    let move := HostMove.load (List.replicate 32768 1) []
    HostMayLoad (waitingAt0 [move]) ∧ HostMayLoad (waitingAt0 [move]).setHalt ∧
      HostMayLoad ((waitingAt0 [move]).record .illegalOperand 40000) ∧ HostMayLoad (at0 [] [move]) ∧
      (at0 [] [move]).host = move :: [] ∧ (List.replicate 32768 (1 : Word)).length ≤ 32768 := by
  refine ⟨?_, ?_, ?_, ?_, rfl, by rw [List.length_replicate]⟩ <;> exact ⟨by decide +kernel, by decide +kernel⟩

/-- Whatever moves are to come, the empty image has run off and the host may load. -/
theorem hostMayLoad_emptyImage (moves : List HostMove) : HostMayLoad (at0 [] moves) :=
  ⟨fun h => (nomatch (h : Status.ranOff = .running)), fun h => (nomatch (h : Status.ranOff = .waitIn))⟩

/-- Two presets of register 7 and one of register 0; and the empty image, on a core that ran off. -/
theorem witness_LoadPresetsAndRefusals :
    (let ps : List (Fin 8 × Value) := [(7, 1), (0, 32767), (7, 65)];
     let s := at0 [] [.load [0] ps];
     HostMayLoad s ∧ s.host = .load [0] ps :: [] ∧ [(0 : Word)].length ≤ 32768 ∧ (∀ p ∈ ps, p.1 ≠ 1) ∧
        ps = [(7, 1), (0, 32767)] ++ (7, 65) :: [] ∧ ps = [(7, 1)] ++ (0, 32767) :: [(7, 65)] ∧
        ∀ p ∈ [((7 : Fin 8), (65 : Value))], p.1 ≠ 0) ∧
    (let s := at0 [] [.load [] []]; HostMayLoad s ∧ s.host = .load [] [] :: []) := by
  exact ⟨⟨hostMayLoad_emptyImage _, rfl, by decide, by simp, rfl, rfl, by simp⟩, hostMayLoad_emptyImage _, rfl⟩

/-- The refused load: a host list that holds an image one word too long. -/
theorem witness_LoadPresetsAndRefusals_refused :
    let img := List.replicate 32769 (0 : Word)
    HostMayLoad (at0 [] [.load img []]) ∧ (at0 [] [.load img []]).host = .load img [] :: [] ∧ 32768 < img.length := by
  refine ⟨hostMayLoad_emptyImage _, rfl, ?_⟩
  rw [List.length_replicate]
  decide

theorem witness_DumpLoadedAgainRestoresMemoryOnly :
    CoreInv (at0 [16, 3, 1]) := by
  exact (witness_invariants _ _ (by decide)).1

end Sys2Proof.Tests
end

section
/-! SUPPORT. Decoding read backwards: what decodes to an instruction begins with that instruction's encoding, so the
instruction at the program counter lies below the extent (30_encoding.md R50, R52; 40_execution_cycle.md R72). -/

namespace Sys2Proof

theorem decodeA_ok {f : Operand → Instr} {ws rest : List Word} {i : Instr} (h : decodeA f ws = .ok i rest) :
    ∃ a, i = f a ∧ ws = a.toWord :: rest := by
  rcases decodeA_cases f ws with ⟨_, e⟩ | ⟨w1, _, hws, e⟩ <;> rw [e] at h <;> cases h
  exact ⟨.ofWord w1, rfl, by simp [hws]⟩

theorem decodeAB_ok {f : Operand → Operand → Instr} {ws rest : List Word} {i : Instr}
    (h : decodeAB f ws = .ok i rest) : ∃ a b, i = f a b ∧ ws = a.toWord :: b.toWord :: rest := by
  rcases decodeAB_cases f ws with ⟨_, e⟩ | ⟨w1, w2, _, hws, e⟩ <;> rw [e] at h <;> cases h
  exact ⟨.ofWord w1, .ofWord w2, rfl, by simp [hws]⟩

theorem decodeABC_ok {f : Operand → Operand → Operand → Instr} {ws rest : List Word} {i : Instr}
    (h : decodeABC f ws = .ok i rest) :
    ∃ a b c, i = f a b c ∧ ws = a.toWord :: b.toWord :: c.toWord :: rest := by
  rcases decodeABC_cases f ws with ⟨_, e⟩ | ⟨w1, w2, w3, _, hws, e⟩ <;> rw [e] at h <;> cases h
  exact ⟨.ofWord w1, .ofWord w2, .ofWord w3, rfl, by simp [hws]⟩

/-- The 22 opcodes fall under the four formats of R50; each format is one argument, given the opcode value of the
instruction's encoding. -/
theorem decodeWords_ok {ws rest : List Word} {i : Instr} (h : decodeWords ws = .ok i rest) : ws = encode i ++ rest := by
  cases ws with
  | nil => cases h
  | cons w0 ws =>
    have opcode : ∀ {n}, w0.toNat = n → w0 = BitVec.ofNat 16 n := fun e => by simp [← e]
    have formatO : ∀ {j n}, w0.toNat = n → encode j = [BitVec.ofNat 16 n] → DecodeResult.ok j ws = .ok i rest →
        w0 :: ws = encode i ++ rest := fun hn he h => by
      cases h; rw [he, opcode hn]; rfl
    have formatA : ∀ {f n}, w0.toNat = n → (∀ a, encode (f a) = [BitVec.ofNat 16 n, a.toWord]) →
        decodeA f ws = .ok i rest → w0 :: ws = encode i ++ rest := fun hn he h => by
      obtain ⟨a, rfl, rfl⟩ := decodeA_ok h; rw [he, opcode hn]; rfl
    have formatAB : ∀ {f n}, w0.toNat = n → (∀ a b, encode (f a b) = [BitVec.ofNat 16 n, a.toWord, b.toWord]) →
        decodeAB f ws = .ok i rest → w0 :: ws = encode i ++ rest := fun hn he h => by
      obtain ⟨a, b, rfl, rfl⟩ := decodeAB_ok h; rw [he, opcode hn]; rfl
    have formatABC : ∀ {f n}, w0.toNat = n →
        (∀ a b c, encode (f a b c) = [BitVec.ofNat 16 n, a.toWord, b.toWord, c.toWord]) →
        decodeABC f ws = .ok i rest → w0 :: ws = encode i ++ rest := fun hn he h => by
      obtain ⟨a, b, c, rfl, rfl⟩ := decodeABC_ok h; rw [he, opcode hn]; rfl
    simp only [decodeWords] at h
    split at h <;> first
      | exact formatO ‹_› rfl h
      | exact formatA ‹_› (fun _ => rfl) h
      | exact formatAB ‹_› (fun _ _ => rfl) h
      | exact formatABC ‹_› (fun _ _ _ => rfl) h
      | cases h

theorem encode_length_pos (i : Instr) : 0 < (encode i).length := by
  cases i <;> exact Nat.succ_pos _

/-- The instructions that may give the program counter a target of their own (43_control.md). -/
def Instr.Transfers (i : Instr) : Prop :=
  (∃ a, i = .jmp a) ∨ (∃ a b, i = .jt a b) ∨ (∃ a b, i = .jf a b) ∨ (∃ a, i = .call a) ∨ i = .ret

end Sys2Proof

namespace Sys2Proof.Machine

/-- An instruction that is fetched lies below the extent with all its words. -/
theorem fetch_ok_below_extent {s : State} {i : Instr} (h : fetch s = .ok i) :
    s.pc.toNat + (encode i).length ≤ s.mlen := by
  unfold fetch at h
  split at h
  · rename_i j rest hd
    cases h
    have hlen := congrArg List.length (decodeWords_ok hd)
    have hpos := encode_length_pos i
    rw [State.length_fetchWindow, List.length_append] at hlen
    omega
  · cases h
  · cases h

end Sys2Proof.Machine
end

section
/-! SUPPORT. What one instruction does to each part of the state (10_state.md): registers, stack, memory and extent,
halt flag and fault record, program counter. Each is read off `Effect` once. -/

namespace Sys2Proof.Machine

variable {i : Instr} {s t : State}

/-- Registers (R11): none is written, or the one the destination names. -/
theorem Effect.regs_cases (h : Effect s i t) :
    t.regs = s.regs ∨ ∃ d v, i.dst? = some (.reg d) ∧ t.regs = (s.setReg d v).regs := by
  cases h with
  | wrote d v hd _ _ => exact .inr ⟨d, v, hd, rfl⟩
  | popped d v _ => exact .inr ⟨d, v, rfl, rfl⟩
  | taken d c _ => exact .inr ⟨d, c, rfl, rfl⟩
  | emitted a v _ => exact .inl (by simp)
  | _ => exact .inl rfl

theorem top?_some {v : Value} (h : s.top? = some v) : s.stk = s.stk.dropLast ++ [v] :=
  (List.dropLast_append_getLast? v h).symm

/-- Stack (R14): untouched, one cell appended by `push` or `call`, or the last cell removed by `pop` or `ret`. -/
theorem Effect.stk_cases (h : Effect s i t) :
    t.stk = s.stk ∨
    (((∃ a, i = .push a) ∨ (∃ a, i = .call a)) ∧ ∃ v, t.stk = s.stk ++ [v]) ∨
    (((∃ a, i = .pop a) ∨ i = .ret) ∧ ∃ v, s.stk = t.stk ++ [v]) := by
  cases h with
  | pushed a v _ => exact .inr (.inl ⟨.inl ⟨a, rfl⟩, v, rfl⟩)
  | called a v _ _ => exact .inr (.inl ⟨.inr ⟨a, rfl⟩, _, rfl⟩)
  | popped d v hv => exact .inr (.inr ⟨.inl ⟨_, rfl⟩, v, top?_some hv⟩)
  | returned v hv => exact .inr (.inr ⟨.inr rfl, v, top?_some hv⟩)
  | emitted a v _ => exact .inl (by simp)
  | _ => exact .inl rfl

/-- Memory and extent (R16, R17): untouched, or the one `MemWrite` of `wmem`. -/
theorem Effect.memory_cases (h : Effect s i t) :
    (t.mem = s.mem ∧ t.mlen = s.mlen) ∨
    ∃ a b ea v, i = .wmem a b ∧ s.resolve a = some ea ∧
      t.mem = (s.memWrite ea.toNat (zext16 v)).mem ∧ t.mlen = (s.memWrite ea.toNat (zext16 v)).mlen := by
  cases h with
  | stored a b ea v ha _ => exact .inr ⟨a, b, ea, v, rfl, ha, rfl, rfl⟩
  | emitted a v _ => exact .inl (by simp)
  | _ => exact .inl ⟨rfl, rfl⟩

/-- Halt flag and fault record (R15, R18, R19): untouched, a graceful halt and nothing else, or a fault and nothing
else. -/
theorem Effect.record_cases (h : Effect s i t) :
    SameRecord s t ∨
    ((i = .halt ∨ (s.stk = [] ∧ (i = .ret ∨ ∃ d, i = .pop (.reg d)))) ∧ t = s.setHalt) ∨
    ∃ c w, c ≠ .none ∧ (s.pc.toNat ≤ Config.memCap → recordFits c w) ∧ t = s.record c w := by
  cases h with
  | raised c w hc fits => exact .inr (.inr ⟨c, w, hc, fits, rfl⟩)
  | halted => exact .inr (.inl ⟨.inl rfl, rfl⟩)
  | popEmpty d h => exact .inr (.inl ⟨.inr ⟨h, .inr ⟨d, rfl⟩⟩, rfl⟩)
  | retEmpty h => exact .inr (.inl ⟨.inr ⟨h, .inl rfl⟩, rfl⟩)
  | emitted a v _ => exact .inl (by simp [SameRecord])
  | _ => exact .inl ⟨rfl, rfl, rfl⟩

/-- Program counter (R13, R78): past the instruction, unchanged by a hold, a halt or a fault, or the target of a
transfer. -/
theorem Effect.pc_cases (h : Effect s i t) :
    t.pc = s.pc + BitVec.ofNat 16 (encode i).length ∨
    (t.pc = s.pc ∧ (t = s ∨ t.halt = true ∨ t.fault ≠ .none)) ∨
    (i.Transfers ∧ ∃ v, t.pc = zext16 v) := by
  cases h with
  | raised c w hc _ => exact .inr (.inl ⟨rfl, .inr (.inr hc)⟩)
  | halted => exact .inr (.inl ⟨rfl, .inr (.inl rfl)⟩)
  | popEmpty d _ => exact .inr (.inl ⟨rfl, .inr (.inl rfl)⟩)
  | retEmpty _ => exact .inr (.inl ⟨rfl, .inr (.inl rfl)⟩)
  | held d _ => exact .inr (.inl ⟨rfl, .inl rfl⟩)
  | jumped v hi => exact .inr (.inr ⟨hi.imp_right (Or.imp_right .inl), v, rfl⟩)
  | called a v _ _ => exact .inr (.inr ⟨.inr (.inr (.inr (.inl ⟨a, rfl⟩))), v, rfl⟩)
  | returned v _ => exact .inr (.inr ⟨.inr (.inr (.inr (.inr rfl))), v, rfl⟩)
  | emitted a v _ => exact .inl (by simp [encode])
  | _ => exact .inl rfl

end Sys2Proof.Machine
end

section
/-! SUPPORT. What one step, the environment's part included, does to the fault record, to memory and to the program
counter. Each is read off `StepEffect` once. -/

namespace Sys2Proof.Machine

variable {s t : State}

/-- Halt flag and fault record over a step: untouched; or the core runs or waits, and its halt flag alone may be set, or a
fault is recorded and nothing else; or a load. -/
theorem StepEffect.record_cases (h : StepEffect s t) :
    SameRecord s t ∨
    (CanStep s ∧ t.fault = s.fault ∧ t.finfo = s.finfo) ∨
    (CanStep s ∧ ∃ c w, c ≠ .none ∧ (CoreInv s → recordFits c w) ∧ t = s.record c w) ∨
    ((∃ img ps moves, s.host = .load img ps :: moves) ∧ t.halt = false ∧ t.fault = .none ∧ t.finfo = 0) := by
  cases h with
  | executed i hs _ _ eff =>
    have can := (status_running.1 hs).1
    rcases eff.record_cases with same | ⟨_, rfl⟩ | ⟨c, w, hc, fits, rfl⟩
    · exact .inl same
    · exact .inr (.inl ⟨can, rfl, rfl⟩)
    · exact .inr (.inr (.inl ⟨can, c, w, hc, fun inv => fits inv.pc_le, rfl⟩))
  | fetchFault c w hs hf =>
    have can := (status_running.1 hs).1
    refine .inr (.inr (.inl ⟨can, c, w, ?_⟩))
    rcases fetch_raises can.2.2 hf with ⟨rfl, _, h21⟩ | ⟨rfl, rfl⟩
    · exact ⟨by simp, fun _ => h21, rfl⟩
    · refine ⟨by simp, fun inv => ?_, rfl⟩
      have := inv.extent_le
      simp only [Config.memCap] at this
      simp only [recordFits, BitVec.toNat_ofNat]
      omega
  | dispatched hs _ => exact .inr (.inl ⟨(status_waitIn.1 hs).1, by simp, by simp⟩)
  | debugged op _ hs _ _ => exact .inr (.inl ⟨(status_waitIn.1 hs).1, by simp, by simp⟩)
  | loaded img ps moves _ hh _ =>
    exact .inr (.inr (.inr ⟨⟨img, ps, moves, hh⟩, by simp [State.loaded, State.reset]⟩))
  | held _ _ _ => exact .inl ⟨rfl, rfl, rfl⟩
  | keyed c _ _ _ _ => exact .inl (by simp [SameRecord])
  | readStopped _ _ _ _ => exact .inl ⟨rfl, rfl, rfl⟩

/-- What a poke leaves in memory depends on memory and extent alone. -/
theorem State.poke_memory_congr (hm : t.mem = s.mem) (hl : t.mlen = s.mlen) (a : Nat) (ws : List Word) :
    (t.poke a ws).mem = (s.poke a ws).mem ∧ (t.poke a ws).mlen = (s.poke a ws).mlen := by
  induction ws generalizing s t a with
  | nil => exact ⟨hm, hl⟩
  | cons w ws ih =>
    unfold State.poke
    split
    · exact ih (by simp [hm]) (by simp [hl]) (a + 1)
    · exact ⟨hm, hl⟩

/-- Memory and extent of `t` are those of `s` after some words are stored at rising addresses, none beyond the ceiling.
It covers what `wmem` and the debug port write, and, with no words, what leaves memory alone. -/
def Poked (s t : State) : Prop :=
  ∃ a ws, t.mem = (s.poke a ws).mem ∧ t.mlen = (s.poke a ws).mlen

theorem Poked.of_same (hm : t.mem = s.mem) (hl : t.mlen = s.mlen) : Poked s t :=
  ⟨0, [], hm, hl⟩

theorem Poked.of_memWrite {a : Nat} {w : Word} (ha : a < Config.memCap) (hm : t.mem = (s.memWrite a w).mem)
    (hl : t.mlen = (s.memWrite a w).mlen) : Poked s t :=
  ⟨a, [w], by simpa [State.poke, ha] using hm, by simpa [State.poke, ha] using hl⟩

theorem Poked.debug {u : State} (hm : u.mem = s.mem) (hl : u.mlen = s.mlen) (op : DebugOp) : Poked s (u.debug op) := by
  cases op with
  | writeMem a ws => exact ⟨a.toNat, ws, State.poke_memory_congr hm hl _ _⟩
  | read q => exact .of_same hm hl
  | halt => exact .of_same hm hl
  | writeReg r v => exact .of_same hm hl

theorem Poked.dispatchLine (s : State) : Poked s s.dispatchLine := by
  unfold State.dispatchLine
  split
  · split
    · exact .debug s.archive_mem s.archive_mlen _
    · exact .of_same rfl rfl
  · exact .of_same rfl rfl

theorem Poked.mlen_le (h : Poked s t) : s.mlen ≤ t.mlen := by
  obtain ⟨a, ws, _, hl⟩ := h
  exact hl ▸ State.poke_mlen_le s a ws

theorem Effect.poked {i : Instr} (h : Effect s i t) : Poked s t := by
  rcases h.memory_cases with ⟨hm, hl⟩ | ⟨a, b, ea, v, rfl, _, hm, hl⟩
  · exact .of_same hm hl
  · exact .of_memWrite ea.isLt hm hl

/-- Memory and extent over a step: words stored, or a load. -/
theorem StepEffect.memory_cases (h : StepEffect s t) :
    Poked s t ∨
    ∃ img ps moves, s.host = .load img ps :: moves ∧ img.length ≤ Config.memCap ∧
      t = (State.loaded img moves).preset ps := by
  cases h with
  | executed i _ _ _ eff => exact .inl eff.poked
  | dispatched _ _ => exact .inl (.dispatchLine s)
  | debugged op _ _ _ _ => exact .inl (.debug s.dropMove_mem s.dropMove_mlen op)
  | loaded img ps moves _ hh hl => exact .inr ⟨img, ps, moves, hh, hl, rfl⟩
  | keyed c _ _ _ _ => exact .inl (.of_same (by simp) (by simp))
  | fetchFault _ _ _ _ => exact .inl (.of_same rfl rfl)
  | held _ _ _ => exact .inl (.of_same rfl rfl)
  | readStopped _ _ _ _ => exact .inl (.of_same rfl rfl)

/-- An instruction that is fetched below the ceiling leaves the program counter in range. -/
theorem Effect.pc_le {i : Instr} (h : Effect s i t) (inv : CoreInv s) (hf : fetch s = .ok i) :
    t.pc.toNat ≤ Config.memCap := by
  rcases h.pc_cases with hp | ⟨hp, _⟩ | ⟨_, v, hp⟩
  · have hlen := fetch_ok_below_extent hf
    have hext := inv.extent_le
    rw [hp, BitVec.toNat_add, BitVec.toNat_ofNat]
    simp only [Config.memCap] at hext ⊢
    omega
  · exact hp ▸ inv.pc_le
  · have := v.isLt
    rw [hp, toNat_zext16]
    simp only [Config.memCap]
    omega

/-- From a state that meets the core invariant, every step leaves the program counter in range. -/
theorem StepEffect.pc_le (h : StepEffect s t) (inv : CoreInv s) : t.pc.toNat ≤ Config.memCap := by
  cases h with
  | executed i _ hf _ eff => exact eff.pc_le inv hf
  | loaded img ps moves _ _ _ => simp [State.loaded, State.reset]
  | dispatched _ _ => simpa using inv.pc_le
  | debugged op _ _ _ _ => simpa using inv.pc_le
  | keyed c _ _ _ _ => simpa using inv.pc_le
  | fetchFault _ _ _ _ => exact inv.pc_le
  | held _ _ _ => exact inv.pc_le
  | readStopped _ _ _ _ => exact inv.pc_le

/-! What a stopped core's step is, by what stopped it (R20). -/

theorem step_of_faulted (h : s.fault ≠ .none) : step s = stoppedStep .faulted s := by
  have status : s.status = .faulted := by simp [State.status, h]
  simp [step, environmentStep, status]

theorem step_of_halted (hf : s.fault = .none) (hh : s.halt = true) : step s = stoppedStep .halted s := by
  have status : s.status = .halted := by simp [State.status, hf, hh]
  simp [step, environmentStep, status]

theorem step_of_ranOff (hf : s.fault = .none) (hh : s.halt = false) (hp : s.mlen ≤ s.pc.toNat) :
    step s = stoppedStep .ranOff s := by
  have status : s.status = .ranOff := by simp [State.status, hf, hh, hp]
  simp [step, environmentStep, status]

/-- A core that is stopped and has no load or debug read at hand answers why it is stopped. -/
theorem stoppedStep_eq_fault (hl : ∀ img ps moves, s.host ≠ .load img ps :: moves)
    (hr : ∀ q moves, s.host ≠ .debug (.read q) :: moves) (f : Fault) : stoppedStep f s = .fault f := by
  unfold stoppedStep
  split
  · exact absurd ‹_› (hl _ _ _)
  · exact absurd ‹_› (hr _ _)
  · rfl

end Sys2Proof.Machine
end

section
/-! The statements of 10_state.md, settled. -/

namespace Sys2Proof.Machine

/-- Settles O35. A step leaves the record alone, halts or faults a core that was neither, or loads; the information word
of a fault fits because the program counter and the extent are in range. -/
theorem stepKeepsFaultRecordInvariant : Obligations.StepKeepsFaultRecordInvariant := by
  intro s t core record h
  rcases (step_effect h).record_cases with ⟨hh, hf, hi⟩ | ⟨⟨sound, _, _⟩, hf, hi⟩ |
      ⟨⟨_, running, _⟩, c, w, _, fits, rfl⟩ | ⟨_, hh, hf, hi⟩
  · exact ⟨by rw [hf, hi]; exact record.fits, by rw [hf, hh]; exact record.not_both⟩
  · exact ⟨by rw [hf, hi]; exact record.fits, fun faulted => absurd (hf.trans sound) faulted⟩
  · exact ⟨fits core, fun _ => running⟩
  · exact ⟨by rw [hf, hi]; rfl, fun _ => hh⟩

/-- Settles O52. Memory and extent come from stores below the ceiling or from an image that fits, and the program counter
from an instruction that lies below the extent or from a 15-bit target. -/
theorem stepKeepsCoreInvariant : Obligations.StepKeepsCoreInvariant := by
  intro s t inv h
  have eff := step_effect h
  have memory : t.mem.wf ∧ (∀ c ∈ t.mem, c.1 < 2 * t.mlen) ∧ t.mlen ≤ Config.memCap := by
    rcases eff.memory_cases with ⟨a, ws, hm, hl⟩ | ⟨img, ps, moves, _, fits, rfl⟩
    · rw [hm, hl]
      exact State.poke_keeps ws inv.memory_wf inv.cells_below_extent inv.extent_le
    · rw [State.preset_mem, State.preset_mlen]
      exact State.loaded_keeps moves fits
  obtain ⟨wf, cells, extent⟩ := memory
  exact ⟨wf, cells, extent, eff.pc_le inv⟩

/-- Settles O34: a core that is halted or faulted cannot step, so what a step without a load does to the record of such a
core is nothing. -/
theorem onlyALoadClearsHaltAndFault : Obligations.OnlyALoadClearsHaltAndFault := by
  intro s t h noLoad
  rcases (step_effect h).record_cases with ⟨hh, hf, hi⟩ | ⟨⟨sound, running, _⟩, _⟩ | ⟨⟨sound, running, _⟩, _⟩ |
      ⟨⟨img, ps, moves, load⟩, _⟩
  · exact ⟨fun halted => hh.trans halted, fun _ => ⟨hf, hi⟩⟩
  · exact ⟨fun halted => by simp [running] at halted, fun faulted => absurd sound faulted⟩
  · exact ⟨fun halted => by simp [running] at halted, fun faulted => absurd sound faulted⟩
  · exact absurd load (noLoad img ps moves)

/-- Settles O36. -/
theorem onlyTheDestinationRegisterChanges : Obligations.OnlyTheDestinationRegisterChanges := by
  intro i s t h r changed
  rcases (effect_of_exec h).regs_cases with same | ⟨d, v, hd, written⟩
  · exact absurd (State.reg_congr same r) changed
  · have named : r = d := by
      by_contra other
      exact changed ((State.reg_congr written r).trans (s.reg_setReg_other other v))
    rw [hd, named]

/-- Settles O37. -/
theorem onlyWmemWritesMemory : Obligations.OnlyWmemWritesMemory := by
  intro i s t h
  rcases (effect_of_exec h).memory_cases with ⟨hm, hl⟩ | ⟨a, b, ea, v, rfl, ha, hm, _⟩
  · exact ⟨fun _ => ⟨fun k => by rw [hm], hm, hl⟩, fun _ _ _ _ _ k _ => State.word_congr hm k⟩
  · refine ⟨fun other => absurd rfl (other a b), fun a' b' ea' same ha' k hk => ?_⟩
    cases same
    obtain rfl : ea = ea' := Option.some.inj (ha.symm.trans ha')
    rw [State.word_congr hm k, State.word_memWrite, if_neg hk]

/-- Settles O38. -/
theorem stackMovesByOneCellOnly : Obligations.StackMovesByOneCellOnly := by
  intro i s t h changed
  exact (effect_of_exec h).stk_cases.resolve_left changed

/-- Settles O39: an instruction sets the flag only by a graceful halt. -/
theorem haltFlagIsSetOnlyByTheseThree : Obligations.HaltFlagIsSetOnlyByTheseThree := by
  intro i s t h before after
  rcases (effect_of_exec h).record_cases with ⟨hh, _, _⟩ | halts | ⟨c, w, _, _, rfl⟩
  · rw [hh, before] at after; cases after
  · exact halts
  · rw [State.record_halt, before] at after; cases after

/-- Settles O40. -/
theorem extentNeverShrinks : Obligations.ExtentNeverShrinks := by
  intro s t h noLoad
  rcases (step_effect h).memory_cases with poked | ⟨img, ps, moves, load, _⟩
  · exact poked.mlen_le
  · exact absurd load (noLoad img ps moves)

/-- Settles O41: the other ways the program counter can go are a hold, a halt, a fault and a transfer, and each is
excluded. -/
theorem pcAdvancesPastTheInstruction : Obligations.PcAdvancesPastTheInstruction := by
  intro i s t h hf hh changed noJmp noJt noJf noCall noRet sound running
  rcases (effect_of_exec h).pc_cases with past | ⟨_, held | halts | faults⟩ | ⟨transfer, _⟩
  · exact past
  · exact absurd held changed
  · rw [hh, running] at halts; cases halts
  · exact absurd (hf.trans sound) faults
  · rcases transfer with ⟨a, e⟩ | ⟨a, b, e⟩ | ⟨a, b, e⟩ | ⟨a, e⟩ | e
    · exact absurd e (noJmp a)
    · exact absurd e (noJt a b)
    · exact absurd e (noJf a b)
    · exact absurd e (noCall a)
    · exact absurd e noRet

/-- Settles O9: the three clauses are the three ways the status says that a core is stopped. -/
theorem stoppedCoreTakesNoStep : Obligations.StoppedCoreTakesNoStep := by
  intro s noLoad noRead
  have stopped := stoppedStep_eq_fault noLoad noRead
  exact ⟨fun faulted => (step_of_faulted faulted).trans (stopped _),
    fun sound halted => (step_of_halted sound halted).trans (stopped _),
    fun sound running off => (step_of_ranOff sound running off).trans (stopped _)⟩

end Sys2Proof.Machine
end

section
/-! SUPPORT. Bytes and words of an image (20_memory.md R35, R36): the word at a position, and the number of words and
bytes. -/

namespace Sys2Proof

@[simp] theorem length_wordsOfBytes (f : List Byte) : (wordsOfBytes f).length = f.length / 2 := by
  induction f using wordsOfBytes.induct with
  | case1 => rfl
  | case2 => simp [wordsOfBytes]
  | case3 lo hi rest ih => simp only [wordsOfBytes, List.length_cons, ih]; omega

@[simp] theorem length_bytesOfWords (ws : List Word) : (bytesOfWords ws).length = 2 * ws.length := by
  induction ws with
  | nil => rfl
  | cons w ws ih => simp only [bytesOfWords, List.length_cons, ih]; omega

theorem toNat_append_bytes (hi lo : Byte) : (hi ++ lo).toNat = lo.toNat + 256 * hi.toNat := by
  have := lo.isLt
  rw [BitVec.toNat_append, ← Nat.shiftLeft_add_eq_or_of_lt this, Nat.shiftLeft_eq]
  omega

/-- Word `k` (R36): the first word takes two bytes, so word `k + 1` is word `k` of the bytes after them. -/
theorem getElem_wordsOfBytes (f : List Byte) (k : Nat) (h : k < (wordsOfBytes f).length) (h1 : 2 * k + 1 < f.length) :
    (wordsOfBytes f)[k] = f[2 * k + 1] ++ f[2 * k] := by
  induction f using wordsOfBytes.induct generalizing k with
  | case1 => simp at h1
  | case2 => simp at h1
  | case3 lo hi rest ih =>
    cases k with
    | zero => rfl
    | succ k =>
      simp only [List.length_cons] at h1
      exact ih k (by simpa [wordsOfBytes] using h) (by omega)

end Sys2Proof
end

section
/-! SUPPORT. The step of a core that can step, by what it fetches (40_execution_cycle.md R71 to R79), and the meaning of
`wmem` with legal operands. -/

namespace Sys2Proof.Machine

variable {s : State}

/-- FETCH below the extent reads the word at the program counter first. -/
theorem State.fetchWindow_eq_cons (h : s.pc.toNat < s.mlen) : ∃ ws, s.fetchWindow = s.word s.pc.toNat :: ws := by
  cases hw : s.fetchWindow with
  | nil =>
    have hlen := s.length_fetchWindow
    rw [hw, List.length_nil] at hlen
    omega
  | cons w ws =>
    have first := s.getElem_fetchWindow 0 (by simp [hw])
    simp only [hw, List.getElem_cons_zero, Nat.add_zero] at first
    exact ⟨ws, by rw [first]⟩

/-- The opcode word of `noop` needs no word after it. -/
theorem fetch_noop (h : s.pc.toNat < s.mlen) (hw : s.word s.pc.toNat = 21) : fetch s = .ok .noop := by
  obtain ⟨ws, window⟩ := State.fetchWindow_eq_cons h
  rw [fetch, window, hw]
  rfl

theorem fetch_unknownOpcode (h : s.pc.toNat < s.mlen) (hw : 21 < (s.word s.pc.toNat).toNat) :
    fetch s = .raises .unknownOpcode (s.word s.pc.toNat) := by
  obtain ⟨ws, window⟩ := State.fetchWindow_eq_cons h
  rw [fetch, window, decodeWords_above hw]

/-- A core that can step, and fetches no `in` that could wait, leaves the environment no part in the step (R20). -/
theorem environmentStep_of_fetch (can : CanStep s) (h : ∀ d, fetch s ≠ .ok (.in_ (.reg d))) :
    environmentStep s = none := by
  have awake : s.waiting = false := by
    rw [Bool.eq_false_iff, ne_eq, waiting_iff]
    exact fun ⟨⟨d, hd⟩, _⟩ => h d hd
  rw [environmentStep, status_running.2 ⟨can, awake⟩]

/-- A core that fetches an instruction other than `in` runs it. -/
theorem step_of_fetch_ok {i : Instr} (can : CanStep s) (hf : fetch s = .ok i) (notIn : ∀ a, i ≠ .in_ a) :
    step s = exec i s := by
  rw [step, environmentStep_of_fetch can fun d e => notIn _ (Fetched.ok.inj (hf.symm.trans e)), hf]

/-- A core that can step takes the fault that fetching raises. -/
theorem step_of_fetch_raises {c : FaultCode} {w : Word} (can : CanStep s) (hf : fetch s = .raises c w) :
    step s = .next (s.record c w) := by
  rw [step, environmentStep_of_fetch can fun d e => (nomatch hf.symm.trans e), hf]
  rfl

/-- `wmem` with two legal operands (R111). -/
theorem exec_wmem_values {a b : Operand} {ea v : Value} (ha : s.resolve a = some ea) (hb : s.resolve b = some v) :
    exec (.wmem a b) s = .next ((s.memWrite ea.toNat (zext16 v)).advance 3) := by
  show withSrc a s _ = _
  rw [withSrc_some ha, withSrc_some hb]

/-- A written cell lies below the extent that the write leaves (R34). -/
theorem State.lt_mlen_memWrite (s : State) (a : Nat) (w : Word) : a < (s.memWrite a w).mlen := by
  rw [State.memWrite_mlen]
  split <;> omega

end Sys2Proof.Machine
end

section
/-! The statements of 20_memory.md, settled. -/

namespace Sys2Proof.Machine

/-- Settles O23, by the laws of `memRead` and of the words after a `memWrite`. -/
theorem memoryReadAndWriteRules : Obligations.MemoryReadAndWriteRules := fun s a =>
  ⟨State.memRead_eq_none.2, fun below => State.memRead_eq_some.2 ⟨below, rfl⟩,
    fun w => ⟨fun k => s.word_memWrite a k w, s.memWrite_mlen a w, rfl⟩⟩

/-- Settles O26: after the store the program counter is below the extent and the word there is the stored value, which
settles what is fetched. -/
theorem storeIsSeenByTheNextFetch : Obligations.StoreIsSeenByTheNextFetch := by
  intro s t a b ea v ha hb h hpc sound running
  rw [exec_wmem_values ha hb] at h
  cases h
  generalize ht : (s.memWrite ea.toNat (zext16 v)).advance 3 = t at hpc ⊢
  have below : t.pc.toNat < t.mlen := by
    rw [hpc, ← ht]; exact s.lt_mlen_memWrite ea.toNat (zext16 v)
  have can : CanStep t := by
    rw [← ht] at below ⊢; exact ⟨sound, running, below⟩
  have seen : t.word t.pc.toNat = zext16 v := by
    rw [hpc, ← ht, State.word_congr (State.advance_mem _ 3), State.word_memWrite, if_pos rfl]
  refine ⟨fun noop => ?_, fun unknown => ?_⟩
  · subst noop
    exact step_of_fetch_ok can (fetch_noop below seen) (by simp)
  · have above : 21 < (t.word t.pc.toNat).toNat := by rwa [seen, toNat_zext16]
    rw [step_of_fetch_raises can (fetch_unknownOpcode below above), seen, zext16]

/-- Settles O47: each word is its two bytes, and the bytes of a word sequence read back with no bytes after them. -/
theorem imageIsLittleEndianWords : Obligations.ImageIsLittleEndianWords := by
  refine ⟨fun f => ⟨length_wordsOfBytes f, fun k h _ h1 => ?_⟩, fun ws => ⟨length_bytesOfWords ws, ?_⟩⟩
  · rw [getElem_wordsOfBytes f k h h1, toNat_append_bytes]
  · simpa [wordsOfBytes] using wordsOfBytes_bytesOfWords ws []

end Sys2Proof.Machine
end

section
/-! SUPPORT. The two directions of decoding for the statements of 30_encoding.md: an encoding decodes to its instruction,
the opcode word alone fixes the length (R51, R52), and the class of an operand word follows from its range (R53). -/

namespace Sys2Proof

/-! ### Decoding an encoding, and the length of what is decoded -/

/-- Each opcode value selects its own format (R56), and the words of the operands give the operands back. -/
theorem decodeWords_encode (i : Instr) (rest : List Word) : decodeWords (encode i ++ rest) = .ok i rest := by
  cases i <;> simp [encode, decodeWords]

/-- The result `d` of decoding is that of an opcode word with `n` operand words (R52, R59), of which `ws` holds those that
exist: an instruction of `1 + n` words, or a report of the first missing position. -/
def HasOperandCount (n : Nat) (ws : List Word) (d : DecodeResult) : Prop :=
  (n ≤ ws.length → ∃ i, d = .ok i (ws.drop n) ∧ (encode i).length = 1 + n) ∧
  (ws.length < n → d = .truncated (1 + ws.length))

theorem hasOperandCount_ok {i : Instr} (len : (encode i).length = 1) (ws : List Word) :
    HasOperandCount 0 ws (.ok i ws) :=
  ⟨fun _ => ⟨i, rfl, len⟩, fun h => absurd h (Nat.not_lt_zero _)⟩

theorem hasOperandCount_decodeA {f : Operand → Instr} (len : ∀ a, (encode (f a)).length = 2) (ws : List Word) :
    HasOperandCount 1 ws (decodeA f ws) := by
  rcases decodeA_cases f ws with ⟨rfl, e⟩ | ⟨w1, rest, rfl, e⟩
  · exact ⟨fun h => absurd h (by simp), fun _ => e⟩
  · exact ⟨fun _ => ⟨_, e, len _⟩, fun h => absurd h (by simp)⟩

theorem hasOperandCount_decodeAB {f : Operand → Operand → Instr} (len : ∀ a b, (encode (f a b)).length = 3)
    (ws : List Word) : HasOperandCount 2 ws (decodeAB f ws) := by
  rcases decodeAB_cases f ws with ⟨short, e⟩ | ⟨w1, w2, rest, rfl, e⟩
  · exact ⟨fun h => absurd short (by omega), fun _ => e⟩
  · exact ⟨fun _ => ⟨_, e, len _ _⟩, fun h => absurd h (by simp)⟩

theorem hasOperandCount_decodeABC {f : Operand → Operand → Operand → Instr}
    (len : ∀ a b c, (encode (f a b c)).length = 4) (ws : List Word) : HasOperandCount 3 ws (decodeABC f ws) := by
  rcases decodeABC_cases f ws with ⟨short, e⟩ | ⟨w1, w2, w3, rest, rfl, e⟩
  · exact ⟨fun h => absurd short (by omega), fun _ => e⟩
  · exact ⟨fun _ => ⟨_, e, len _ _ _⟩, fun h => absurd h (by simp)⟩

/-- The table of R52, row by row: the operand count of an opcode word is that of the format it selects (R56). -/
theorem hasOperandCount_decodeWords {w0 : Word} {n : Nat} (h : Machine.operandCounts[w0.toNat]? = some n) (ws : List Word) :
    HasOperandCount n ws (decodeWords (w0 :: ws)) := by
  have known : w0.toNat < 22 := (List.getElem?_eq_some_iff.1 h).1
  simp only [decodeWords]
  generalize w0.toNat = opcode at h known
  interval_cases opcode <;> cases h
  exacts [
    hasOperandCount_ok (i := .halt) rfl ws,
    hasOperandCount_decodeAB (fun _ _ => rfl) ws,
    hasOperandCount_decodeA (fun _ => rfl) ws,
    hasOperandCount_decodeA (fun _ => rfl) ws,
    hasOperandCount_decodeABC (fun _ _ _ => rfl) ws,
    hasOperandCount_decodeABC (fun _ _ _ => rfl) ws,
    hasOperandCount_decodeA (fun _ => rfl) ws,
    hasOperandCount_decodeAB (fun _ _ => rfl) ws,
    hasOperandCount_decodeAB (fun _ _ => rfl) ws,
    hasOperandCount_decodeABC (fun _ _ _ => rfl) ws,
    hasOperandCount_decodeABC (fun _ _ _ => rfl) ws,
    hasOperandCount_decodeABC (fun _ _ _ => rfl) ws,
    hasOperandCount_decodeABC (fun _ _ _ => rfl) ws,
    hasOperandCount_decodeABC (fun _ _ _ => rfl) ws,
    hasOperandCount_decodeAB (fun _ _ => rfl) ws,
    hasOperandCount_decodeAB (fun _ _ => rfl) ws,
    hasOperandCount_decodeAB (fun _ _ => rfl) ws,
    hasOperandCount_decodeA (fun _ => rfl) ws,
    hasOperandCount_ok (i := .ret) rfl ws,
    hasOperandCount_decodeA (fun _ => rfl) ws,
    hasOperandCount_decodeA (fun _ => rfl) ws,
    hasOperandCount_ok (i := .noop) rfl ws]

/-! ### The class of an operand word, by its range and by its bits -/

theorem Operand.ofWord_eq_of_toNat_eq {w : Word} {a : Operand} (h : w.toNat = a.toWord.toNat) : Operand.ofWord w = a := by
  rw [BitVec.eq_of_toNat_eq h, Operand.ofWord_toWord]

theorem Operand.ofWord_literal {w : Word} {v : Value} (h : v.toNat = w.toNat) : Operand.ofWord w = .lit v :=
  ofWord_eq_of_toNat_eq (by rw [toNat_toWord_lit, h])

theorem Operand.ofWord_register {w : Word} {r : Fin 8} (h : w.toNat = 32768 + r.val) : Operand.ofWord w = .reg r :=
  ofWord_eq_of_toNat_eq (by rw [toNat_toWord_reg, h])

theorem Operand.exists_ofWord_literal {w : Word} (h : w.toNat ≤ 32767) :
    ∃ v, Operand.ofWord w = .lit v ∧ v.toNat = w.toNat := by
  have value : (BitVec.ofNat 15 w.toNat).toNat = w.toNat := by
    rw [BitVec.toNat_ofNat]; omega
  exact ⟨_, ofWord_literal value, value⟩

theorem Operand.exists_ofWord_register {w : Word} (hl : 32768 ≤ w.toNat) (hu : w.toNat ≤ 32775) :
    ∃ r, Operand.ofWord w = .reg r ∧ r.val = w.toNat - 32768 :=
  ⟨⟨w.toNat - 32768, by omega⟩, ofWord_register (by simp only; omega), rfl⟩

theorem Operand.exists_ofWord_illegal {w : Word} (h : 32776 ≤ w.toNat) : ∃ k, Operand.ofWord w = .illegal k :=
  ⟨⟨w.toNat - 32776, by omega⟩, ofWord_eq_of_toNat_eq (by rw [toNat_toWord_illegal]; simp only; omega)⟩

theorem getLsbD_15_eq (w : Word) : w.getLsbD 15 = decide (32768 ≤ w.toNat) := by
  rw [← BitVec.msb_eq_getLsbD_last w, BitVec.msb_eq_decide]

theorem toNat_extractLsb'_zero (w : Word) (n : Nat) : (w.extractLsb' 0 n).toNat = w.toNat % 2 ^ n := by
  rw [BitVec.extractLsb'_toNat, Nat.shiftRight_zero]

/-- Bits 14:3 are all clear exactly when bits 14:0 denote a number below 8. -/
theorem extractLsb'_3_12_eq_zero_iff (w : Word) : w.extractLsb' 3 12 = 0 ↔ w.toNat % 32768 < 8 := by
  rw [BitVec.toNat_eq, BitVec.extractLsb'_toNat, Nat.shiftRight_eq_div_pow]
  simp only [BitVec.ofNat_eq_ofNat, BitVec.toNat_ofNat]
  omega

end Sys2Proof
end

section
/-! The statements of 30_encoding.md, settled. -/

namespace Sys2Proof.Machine

/-- Settles O1: the bytes are first read back as the words they hold, and the words decode to the instruction. -/
theorem decodeGivesBackEncodedInstruction : Obligations.DecodeGivesBackEncodedInstruction := fun i =>
  ⟨decodeWords_encode i, fun bs => by
    rw [decode, encodeBytes, wordsOfBytes_bytesOfWords, decodeWords_encode]⟩

/-- Settles O2. -/
theorem encodeGivesBackDecodedWords : Obligations.EncodeGivesBackDecodedWords := fun _ _ _ h =>
  decodeWords_ok h

/-- Settles O3. -/
theorem opcodeWordAloneDecidesLength : Obligations.OpcodeWordAloneDecidesLength := fun _ ws =>
  ⟨fun above => decodeWords_above above ws, fun _ count => hasOperandCount_decodeWords count ws⟩

/-- Settles O5: each of the three bit clauses is the range clause that the bits put the word in. -/
theorem operandWordsFallIntoThreeClasses : Obligations.OperandWordsFallIntoThreeClasses := by
  intro w
  have width := w.isLt
  rw [getLsbD_15_eq, ne_eq, extractLsb'_3_12_eq_zero_iff, decide_eq_false_iff_not, decide_eq_true_iff]
  refine ⟨Operand.exists_ofWord_literal, Operand.exists_ofWord_register, Operand.exists_ofWord_illegal,
    fun clear => ?_, fun set low => ?_, fun set high => ?_, Operand.toWord_ofWord w⟩
  · exact Operand.ofWord_literal (by rw [toNat_extractLsb'_zero]; omega)
  · obtain ⟨r, isRegister, index⟩ := Operand.exists_ofWord_register set (by omega)
    exact ⟨r, isRegister, by rw [toNat_extractLsb'_zero, index]; omega⟩
  · exact Operand.exists_ofWord_illegal (by omega)

/-- Settles O6: the resolver and `IsReg` go by the class of the operand, and its range gives the class. -/
theorem resolverSelectsLiteralOrRegister : Obligations.ResolverSelectsLiteralOrRegister := by
  intro s w
  refine ⟨fun low => ?_, fun r code => ?_, fun high => ?_, ?_⟩
  · obtain ⟨v, literal, value⟩ := Operand.exists_ofWord_literal low
    exact ⟨v, by rw [literal, State.resolve_lit], value⟩
  · rw [Operand.ofWord_register code, State.resolve_reg]
  · obtain ⟨k, illegal⟩ := Operand.exists_ofWord_illegal high
    have noValue : s.resolve (.ofWord w) = none := by rw [illegal, State.resolve_illegal]
    exact ⟨noValue, fun _ => by rw [withSrc_none noValue, Operand.toWord_ofWord]⟩
  · rw [Operand.isReg_iff, Operand.toWord_ofWord]

/-- Settles O4, by running the decoder on the seven word sequences. -/
theorem sampleWordsDecode : Obligations.SampleWordsDecode :=
  ⟨rfl, rfl, rfl, rfl, rfl, rfl, rfl⟩

/-- Settles O8: FETCH looks at the opcode word first, and what follows it plays no part. -/
theorem unknownOpcodeIsAFatalFault : Obligations.UnknownOpcodeIsAFatalFault := by
  intro s can above
  have ⟨_, _, below⟩ := can
  exact step_of_fetch_raises can (fetch_unknownOpcode below above)

end Sys2Proof.Machine
end

section
/-! SUPPORT. Fetching from words known to stand at the program counter (40_execution_cycle.md R71, R72), the step of a core
that nothing disturbs (R79, R80), and the transfers that are taken (43_control.md). -/

namespace Sys2Proof.Machine

variable {s : State}

/-! ### Fetch and step -/

theorem encode_length_le (i : Instr) : (encode i).length ≤ 4 := by
  cases i <;> simp [encode]

/-- Words in bounds at the program counter, no more than an instruction can have, are what FETCH sees first. -/
theorem WordsAtPc.take_fetchWindow {ws : List Word} (h : WordsAtPc s ws) (len : ws.length ≤ 4) :
    s.fetchWindow.take ws.length = ws := by
  have inBounds : ws.length ≤ s.mlen - s.pc.toNat := by
    cases hw : ws.length with
    | zero => exact Nat.zero_le _
    | succ k =>
      have last := (h k (by omega)).1
      omega
  have fits : ws.length ≤ s.fetchWindow.length := by
    rw [State.length_fetchWindow]; omega
  refine List.ext_getElem (List.length_take_of_le fits) fun k _ hk => ?_
  rw [List.getElem_take, State.getElem_fetchWindow, (h k hk).2]

/-- An instruction whose encoding stands at the program counter is fetched, whatever words follow it. -/
theorem fetch_of_encode_at_pc {i : Instr} (h : WordsAtPc s (encode i)) : fetch s = .ok i := by
  rw [fetch, ← List.take_append_drop (encode i).length s.fetchWindow, h.take_fetchWindow (encode_length_le i),
    decodeWords_encode]

/-- A core that can step is not disturbed by the environment unless it waits, and then only by a completed line or a move
of the host (R80, R152). -/
theorem environmentStep_of_quiet (can : CanStep s)
    (quiet : s.waiting = true → s.chan = .collecting ∧ s.host = []) : environmentStep s = none := by
  cases hw : s.waiting with
  | false => rw [environmentStep, status_running.2 ⟨can, hw⟩]
  | true =>
    obtain ⟨collecting, noMove⟩ := quiet hw
    rw [environmentStep, status_waitIn.2 ⟨can, hw⟩, collecting, noMove]

/-- A core that can step and is not disturbed runs the instruction it fetches. -/
theorem step_of_quiet {i : Instr} (can : CanStep s) (quiet : s.waiting = true → s.chan = .collecting ∧ s.host = [])
    (hf : fetch s = .ok i) : step s = exec i s := by
  rw [step, environmentStep_of_quiet can quiet, hf]

/-- A running core runs the instruction it fetches. -/
theorem step_of_running {i : Instr} (hs : s.status = .running) (hf : fetch s = .ok i) : step s = exec i s := by
  obtain ⟨can, awake⟩ := status_running.1 hs
  exact step_of_quiet can (fun waits => absurd (awake.symm.trans waits) Bool.false_ne_true) hf

/-! ### Transfers -/

theorem exec_jmp_target {a : Operand} {v : Value} (ha : s.resolve a = some v) :
    exec (.jmp a) s = .next (s.setPc (zext16 v)) :=
  withSrc_some ha _

theorem exec_jt_taken {a b : Operand} {c v : Value} (ha : s.resolve a = some c) (hc : c ≠ 0)
    (hb : s.resolve b = some v) : exec (.jt a b) s = .next (s.setPc (zext16 v)) :=
  (withSrc_some ha _).trans ((withSrc_some hb _).trans (if_pos hc))

theorem exec_jf_taken {a b : Operand} {v : Value} (ha : s.resolve a = some 0) (hb : s.resolve b = some v) :
    exec (.jf a b) s = .next (s.setPc (zext16 v)) :=
  (withSrc_some ha _).trans ((withSrc_some hb _).trans (if_pos rfl))

theorem exec_call_target {a : Operand} {v : Value} (ha : s.resolve a = some v) (hp : s.pc.toNat + 2 ≤ 32767) :
    exec (.call a) s = .next ((s.push (BitVec.ofNat 15 (s.pc.toNat + 2))).setPc (zext16 v)) :=
  (withSrc_some ha _).trans (if_neg (Nat.not_lt.2 hp))

theorem exec_ret_target {below : List Value} {v : Value} (h : s.stk = below ++ [v]) :
    exec .ret s = .next (s.dropTop.setPc (zext16 v)) := by
  have top : s.top? = some v := by rw [State.top?, h, List.getLast?_concat]
  show execRet s = _
  rw [execRet, top]

theorem status_ranOff (hf : s.fault = .none) (hh : s.halt = false) (hp : s.mlen ≤ s.pc.toNat) : s.status = .ranOff := by
  simp [State.status, hf, hh, hp]

/-- The answer is a core that has run off at the target (R83). -/
def RunsOffAt (target : Value) (r : Result) : Prop :=
  ∃ t, r = .next t ∧ t.pc.toNat = target.toNat ∧ t.fault = .none ∧ t.halt = false ∧ t.status = .ranOff

/-- CHECK, not the transfer, finds a target at or beyond the extent (R20, R71). -/
theorem runsOffAt_setPc {target : Value} (hf : s.fault = .none) (hh : s.halt = false) (beyond : s.mlen ≤ target.toNat) :
    RunsOffAt target (.next (s.setPc (zext16 target))) := by
  have pc : (s.setPc (zext16 target)).pc.toNat = target.toNat := toNat_zext16 target
  exact ⟨_, rfl, pc, hf, hh, status_ranOff hf hh (pc ▸ beyond)⟩

end Sys2Proof.Machine
end

section
/-! SUPPORT. The fields of the environment (the queue of pending characters, the channel's input side, the host's moves)
reach no instruction but `in`, and `in` only by the queue (40_execution_cycle.md R81): a change to them commutes with every
instruction that does not see it. -/

namespace Sys2Proof.Machine

/-- A change to the environment's fields of a state, each field by itself. -/
structure EnvironmentChange where
  inq : List Value → List Value
  inAcc : List Value → List Value
  history : List Line → List Line
  chan : ChannelState → ChannelState
  host : List HostMove → List HostMove

/-- The state with its environment's fields changed. -/
def EnvironmentChange.apply (g : EnvironmentChange) (s : State) : State :=
  { s with
    inq := g.inq s.inq
    inAcc := g.inAcc s.inAcc
    history := g.history s.history
    chan := g.chan s.chan
    host := g.host s.host }

/-- Every field of the environment is replaced. -/
def EnvironmentChange.replace (q acc : List Value) (hist : List Line) (ch : ChannelState) (moves : List HostMove) :
    EnvironmentChange :=
  ⟨fun _ => q, fun _ => acc, fun _ => hist, fun _ => ch, fun _ => moves⟩

/-- The host has other plans, and nothing else changes. -/
def EnvironmentChange.replaceHost (moves : List HostMove) : EnvironmentChange :=
  ⟨id, id, id, id, fun _ => moves⟩

variable {g : EnvironmentChange} {s : State} {a b c : Operand}

/-! What instructions look at besides operands is unchanged. -/

theorem EnvironmentChange.apply_pc : (g.apply s).pc = s.pc := rfl
theorem EnvironmentChange.apply_top? : (g.apply s).top? = s.top? := rfl
theorem EnvironmentChange.apply_memRead (n : Nat) : (g.apply s).memRead n = s.memRead n := rfl

/-- The output side of the channel does not look at the input side (46_io.md R117). -/
theorem EnvironmentChange.emitChar_apply (v : Value) : (g.apply s).emitChar v = g.apply (s.emitChar v) := by
  unfold State.emitChar
  split <;> rfl

/-- Taking a destination commutes with the change when what follows does: neither the register reference nor the fault
depends on the environment. -/
theorem EnvironmentChange.withDst_apply {k k' : Fin 8 → Result} (h : ∀ d, k' d = mapNext g.apply (k d)) :
    withDst a (g.apply s) k' = mapNext g.apply (withDst a s k) := by
  cases a with
  | lit v => rfl
  | reg d => exact h d
  | illegal j => rfl

/-- So does taking a source. -/
theorem EnvironmentChange.withSrc_apply {k k' : Value → Result} (h : ∀ v, k' v = mapNext g.apply (k v)) :
    withSrc a (g.apply s) k' = mapNext g.apply (withSrc a s k) := by
  cases a with
  | lit v => exact h v
  | reg r => exact h (s.reg r)
  | illegal j => rfl

theorem EnvironmentChange.binary_apply (f : Value → Value → Value) :
    binary f a b c (g.apply s) = mapNext g.apply (binary f a b c s) :=
  withDst_apply fun _ => withSrc_apply fun _ => withSrc_apply fun _ => rfl

/-- `in` sees the queue of pending characters and nothing else of the environment (R119). -/
theorem EnvironmentChange.execIn_apply (sameQueue : g.inq = id) :
    execIn a (g.apply s) = mapNext g.apply (execIn a s) := by
  have queue : (g.apply s).inq = s.inq := congrFun sameQueue s.inq
  have drop : (g.apply s).dropChar = g.apply s.dropChar := by
    simp [State.dropChar, apply, sameQueue]
  refine withDst_apply fun d => ?_
  rw [queue, drop]
  cases s.inq.head? <;> rfl

/-- Every instruction that does not see the change commutes with it: every one but `in`, and `in` too when the queue of
pending characters is left alone. -/
theorem EnvironmentChange.exec_apply {i : Instr} (unseen : (∀ a, i ≠ .in_ a) ∨ g.inq = id) :
    exec i (g.apply s) = mapNext g.apply (exec i s) := by
  cases i with
  | halt => rfl
  | set a b => exact withDst_apply fun _ => withSrc_apply fun _ => rfl
  | push a => exact withSrc_apply fun _ => rfl
  | pop a =>
    refine withDst_apply fun _ => ?_
    rw [apply_top?]
    cases s.top? <;> rfl
  | eq a b c => exact binary_apply _
  | gt a b c => exact binary_apply _
  | jmp a => exact withSrc_apply fun _ => rfl
  | jt a b => exact withSrc_apply fun _ => withSrc_apply fun _ => by split <;> rfl
  | jf a b => exact withSrc_apply fun _ => withSrc_apply fun _ => by split <;> rfl
  | add a b c => exact binary_apply _
  | mult a b c => exact binary_apply _
  | mod a b c => exact withDst_apply fun _ => withSrc_apply fun _ => withSrc_apply fun _ => by split <;> rfl
  | and a b c => exact binary_apply _
  | or a b c => exact binary_apply _
  | not a b => exact withDst_apply fun _ => withSrc_apply fun _ => rfl
  | rmem a b =>
    refine withDst_apply fun _ => withSrc_apply fun ea => ?_
    rw [apply_memRead]
    cases s.memRead ea.toNat with
    | none => rfl
    | some m => dsimp only; split <;> rfl
  | wmem a b => exact withSrc_apply fun _ => withSrc_apply fun _ => rfl
  | call a => exact withSrc_apply fun _ => by dsimp only; rw [apply_pc]; split <;> rfl
  | ret =>
    show execRet (g.apply s) = mapNext g.apply (execRet s)
    unfold execRet
    rw [apply_top?]
    cases s.top? <;> rfl
  | out a => exact withSrc_apply fun v => by rw [emitChar_apply]; rfl
  | in_ a => exact execIn_apply (unseen.resolve_left fun other => other a rfl)
  | noop => rfl

end Sys2Proof.Machine
end

section
/-! The statements of 40_execution_cycle.md, settled. -/

namespace Sys2Proof.Machine

/-- Settles O7: the words are the encoding of the instruction, so it is fetched, and the excluded case is the one in which
the environment disturbs a core that waits. -/
theorem stepRunsTheInstructionAtPc : Obligations.StepRunsTheInstructionAtPc := by
  intro s i ws can words decodes undisturbed
  obtain rfl : ws = encode i := by simpa using decodeWords_ok decodes
  have fetched := fetch_of_encode_at_pc words
  refine step_of_quiet can (fun waits => ?_) fetched
  obtain ⟨⟨d, isIn⟩, empty⟩ := waiting_iff.1 waits
  obtain rfl := Fetched.ok.inj (fetched.symm.trans isIn)
  have idle : ¬ (s.chan = .dispatching ∨ s.host ≠ []) := fun active => undisturbed ⟨⟨d, rfl⟩, empty, active⟩
  obtain ⟨notDispatching, noMove⟩ := not_or.1 idle
  refine ⟨?_, not_not.1 noMove⟩
  cases hc : s.chan with
  | collecting => rfl
  | dispatching => exact absurd hc notDispatching

/-- Settles O10: each of the five transfers sets the program counter of a state that has the fault record, halt flag and
extent of the old one. -/
theorem jumpBeyondExtentRunsOff : Obligations.JumpBeyondExtentRunsOff := by
  intro s a b target sound running beyond
  refine ⟨fun ha => ?_, fun c ha hc hb => ?_, fun ha hb => ?_, fun ha hp => ?_, fun below hs => ?_⟩
  · rw [exec_jmp_target ha]; exact runsOffAt_setPc sound running beyond
  · rw [exec_jt_taken ha hc hb]; exact runsOffAt_setPc sound running beyond
  · rw [exec_jf_taken ha hb]; exact runsOffAt_setPc sound running beyond
  · rw [exec_call_target ha hp]; exact runsOffAt_setPc sound running beyond
  · rw [exec_ret_target hs]; exact runsOffAt_setPc sound running beyond

/-- Settles O11: a next state is part of what `exec_effect` says of every instruction. -/
theorem everyInstructionAnswersANextState : Obligations.EveryInstructionAnswersANextState := by
  intro i s
  obtain ⟨t, answer, _⟩ := exec_effect i s
  exact ⟨t, answer⟩

/-- Settles O33: of what a step can do to the fault record, only the raising of a fault leaves one where there was none. -/
theorem faultsArePrecise : Obligations.FaultsArePrecise := by
  intro s t h sound faulted
  rcases (step_effect h).record_cases with ⟨_, same, _⟩ | ⟨_, same, _⟩ | ⟨_, c, w, _, _, rfl⟩ | ⟨_, _, cleared, _⟩
  · exact absurd (same.trans sound) faulted
  · exact absurd (same.trans sound) faulted
  · rfl
  · exact absurd cleared faulted

/-- Settles O42. -/
theorem inputReachesProgramsThroughInAlone : Obligations.InputReachesProgramsThroughInAlone :=
  fun _ _ q acc hist ch moves notIn => EnvironmentChange.exec_apply (g := .replace q acc hist ch moves) (.inl notIn)

/-- Settles O43: whether the core runs, and what it fetches, does not depend on the host's moves; nor does what the
instruction or the fault then does. -/
theorem hostCannotTouchARunningCore : Obligations.HostCannotTouchARunningCore := by
  intro s moves hs
  have hs' : { s with host := moves }.status = .running := (status_congr rfl rfl rfl rfl rfl rfl).trans hs
  have fetched : fetch { s with host := moves } = fetch s := fetch_congr rfl rfl rfl
  cases hf : fetch s with
  | ok i =>
    rw [step_of_running hs hf, step_of_running hs' (fetched.trans hf)]
    exact EnvironmentChange.exec_apply (g := .replaceHost moves) (.inr rfl)
  | raises c w =>
    rw [step_of_fetch_raises (status_running.1 hs).1 hf, step_of_fetch_raises (status_running.1 hs').1 (fetched.trans hf)]
    rfl

end Sys2Proof.Machine
end

section
/-! SUPPORT. What is common to all instructions: the encoding, the fault of an operand word at the extent
(40_execution_cycle.md R72), and the order in which operands are taken and checked (R73, R76). -/

namespace Sys2Proof

/-- An encoding is an opcode word and as many operand words as the opcode has operands (30_encoding.md R50, R52). -/
theorem encode_eq_opcode_cons_operands (i : Instr) :
    ∃ w0 ws, encode i = w0 :: ws ∧ Machine.operandCounts[w0.toNat]? = some ws.length := by
  cases i <;> exact ⟨_, _, rfl, rfl⟩

/-- An encoding that is cut off after its opcode word lacks the word at the cut (R59). -/
theorem decodeWords_take_encode {i : Instr} {k : Nat} (pos : 0 < k) (short : k < (encode i).length) :
    decodeWords ((encode i).take k) = .truncated k := by
  obtain ⟨w0, ws, words, count⟩ := encode_eq_opcode_cons_operands i
  obtain ⟨j, rfl⟩ : ∃ j, k = j + 1 := ⟨k - 1, by omega⟩
  rw [words, List.length_cons] at short
  have len : (ws.take j).length = j := List.length_take_of_le (by omega)
  have missing := (hasOperandCount_decodeWords count (ws.take j)).2 (by omega)
  rw [words, List.take_succ_cons, missing, len, Nat.add_comm]

end Sys2Proof

namespace Sys2Proof.Machine

variable {s : State}

/-! ### The encoding, and an operand word at the extent -/

theorem encodedAs_encode (i : Instr) : EncodedAs i (encode i) :=
  ⟨rfl, decodeWords_encode i⟩

/-- Where the extent cuts an encoding off, FETCH sees the words before the cut and raises the fault there (R72). -/
theorem fetch_of_encode_cut_off {i : Instr} {k : Nat} (pos : 0 < k) (short : k < (encode i).length)
    (words : WordsAtPc s ((encode i).take k)) (cut : s.pc.toNat + k = s.mlen) :
    fetch s = .raises .memoryBounds (BitVec.ofNat 16 s.mlen) := by
  have atMost := encode_length_le i
  have len : ((encode i).take k).length = k := List.length_take_of_le (by omega)
  have whole : s.fetchWindow.length ≤ ((encode i).take k).length := by
    rw [State.length_fetchWindow, len]; omega
  have window : s.fetchWindow = (encode i).take k := by
    rw [← List.take_of_length_le whole]; exact words.take_fetchWindow (by omega)
  rw [fetch, window, decodeWords_take_encode pos short, ← cut]

/-! ### Operands, in the order in which they are taken -/

/-- The answer `r` is reached by taking the destination, if there is one, and then the sources in their order. -/
inductive TakesOperands (s : State) : Option Operand → List Operand → Result → Prop where
  | done (r : Result) : TakesOperands s none [] r
  | source {a : Operand} {as : List Operand} {k : Value → Result} (rest : ∀ v, TakesOperands s none as (k v)) :
      TakesOperands s none (a :: as) (withSrc a s k)
  | destination {a : Operand} {as : List Operand} {k : Fin 8 → Result} (rest : ∀ d, TakesOperands s none as (k d)) :
      TakesOperands s (some a) as (withDst a s k)

theorem takesOperands_binary (f : Value → Value → Value) (a b c : Operand) :
    TakesOperands s (some a) [b, c] (binary f a b c s) :=
  .destination fun _ => .source fun _ => .source fun _ => .done _

/-- Every instruction takes its operands before it does anything else. -/
theorem exec_takesOperands (i : Instr) (s : State) : TakesOperands s i.dst? i.sources (exec i s) := by
  cases i with
  | halt => exact .done _
  | set a b => exact .destination fun _ => .source fun _ => .done _
  | push a => exact .source fun _ => .done _
  | pop a => exact .destination fun _ => .done _
  | eq a b c => exact takesOperands_binary _ a b c
  | gt a b c => exact takesOperands_binary _ a b c
  | jmp a => exact .source fun _ => .done _
  | jt a b => exact .source fun _ => .source fun _ => .done _
  | jf a b => exact .source fun _ => .source fun _ => .done _
  | add a b c => exact takesOperands_binary _ a b c
  | mult a b c => exact takesOperands_binary _ a b c
  | mod a b c => exact .destination fun _ => .source fun _ => .source fun _ => .done _
  | and a b c => exact takesOperands_binary _ a b c
  | or a b c => exact takesOperands_binary _ a b c
  | not a b => exact .destination fun _ => .source fun _ => .done _
  | rmem a b => exact .destination fun _ => .source fun _ => .done _
  | wmem a b => exact .source fun _ => .source fun _ => .done _
  | call a => exact .source fun _ => .done _
  | ret => exact .done _
  | out a => exact .source fun _ => .done _
  | in_ a => exact .destination fun _ => .done _
  | noop => exact .done _

/-- A destination that is no register reference is found before any source is looked at. -/
theorem TakesOperands.raises_invalidDestination {a : Operand} {sources : List Operand} {r : Result}
    (h : TakesOperands s (some a) sources r) (notReg : a.isReg = false) :
    r = .next (s.record .invalidDestination a.toWord) := by
  cases h with
  | destination _ => exact withDst_not_reg notReg s _

/-- Where no destination is in the way, the first illegal source is found: those before it have values. -/
theorem TakesOperands.raises_illegalOperand {before after : List Operand} {o : Operand} {r : Result}
    (h : TakesOperands s none (before ++ o :: after) r) (legal : before.all Operand.isSource = true)
    (illegal : o.isSource = false) : r = .next (s.record .illegalOperand o.toWord) := by
  induction before generalizing r with
  | nil =>
    cases h with
    | source _ => exact withSrc_none (State.resolve_none.2 illegal) _
  | cons b before ih =>
    rw [List.all_cons, Bool.and_eq_true] at legal
    obtain ⟨legalB, legalRest⟩ := legal
    cases h with
    | @source _ _ k rest =>
      rcases withSrc_cases b s k with ⟨v, _, goesOn⟩ | ⟨illegalB, _⟩
      · rw [goesOn]; exact ih (rest v) legalRest
      · exact absurd (legalB.symm.trans illegalB) (by decide)

/-- A destination that is a register reference leaves the sources to be taken. -/
theorem TakesOperands.sources_of_isReg {dst : Option Operand} {sources : List Operand} {r : Result}
    (h : TakesOperands s dst sources r) (isReg : ∀ a, dst = some a → a.isReg = true) :
    TakesOperands s none sources r := by
  cases h with
  | done r => exact .done r
  | source rest => exact .source rest
  | @destination a _ k rest =>
    rcases withDst_cases a s k with ⟨d, _, goesOn⟩ | ⟨notReg, _⟩
    · rw [goesOn]; exact rest d
    · exact absurd ((isReg a rfl).symm.trans notReg) (by decide)

/-- Every instruction raises the common faults, in their order (R72, R73, R76). -/
theorem commonFaults (i : Instr) : CommonFaults i := by
  refine ⟨fun s k can pos short words cut => ?_, fun s a dst notReg => ?_,
    fun s before o after isReg sources legal illegal => ?_⟩
  · exact step_of_fetch_raises can (fetch_of_encode_cut_off pos short words cut)
  · exact (dst ▸ exec_takesOperands i s).raises_invalidDestination notReg
  · exact (sources ▸ (exec_takesOperands i s).sources_of_isReg isReg).raises_illegalOperand legal illegal

end Sys2Proof.Machine
end

section
/-! SUPPORT. Frames of the state updates that instructions are made of, and the meaning of `set`, `push` and `pop` with
legal operands (41_move_stack.md). -/

namespace Sys2Proof.Machine

variable {s t : State}

/-! ### Frames -/

theorem SameMemory.of_eq (hm : t.mem = s.mem) (hl : t.mlen = s.mlen) : SameMemory s t :=
  ⟨fun a => by rw [hm], hm, hl⟩

/-- A state that differs at most in registers, program counter, stack and memory. -/
theorem SameRest.of_update
    (h : t = { s with regs := t.regs, pc := t.pc, stk := t.stk, mem := t.mem, mlen := t.mlen }) : SameRest s t := by
  rw [h]; exact ⟨⟨rfl, rfl, rfl⟩, ⟨rfl, rfl, rfl⟩, ⟨rfl, rfl, rfl, rfl⟩, rfl⟩

/-- A state that differs at most in registers and program counter. -/
theorem SameButRegsPc.of_update (h : t = { s with regs := t.regs, pc := t.pc }) : SameButRegsPc s t := by
  rw [h]; exact ⟨rfl, .of_eq rfl rfl, .of_update rfl⟩

theorem RegWritten.of_regs {d : Fin 8} {v : Value} (h : t.regs = (s.setReg d v).regs) : RegWritten s t d v :=
  ⟨by rw [State.reg_congr h, State.reg_setReg_same],
    fun r other => by rw [State.reg_congr h, State.reg_setReg_other s other]⟩

/-- Writing a register's own value changes no register. -/
theorem State.reg_setReg_self (s : State) (d r : Fin 8) : (s.setReg d (s.reg d)).reg r = s.reg r := by
  by_cases h : r = d
  · rw [h, State.reg_setReg_same]
  · exact s.reg_setReg_other h _

/-! ### The top of the stack -/

theorem State.top?_of_stk {below : List Value} {v : Value} (h : s.stk = below ++ [v]) : s.top? = some v := by
  rw [State.top?, h, List.getLast?_concat]

theorem State.dropTop_stk_of_stk {below : List Value} {v : Value} (h : s.stk = below ++ [v]) :
    s.dropTop.stk = below := by
  rw [State.dropTop_stk, h, List.dropLast_concat]

/-! ### `set`, `push`, `pop` -/

/-- `set` with legal operands (R90). -/
theorem exec_set_value {d : Fin 8} {b : Operand} {v : Value} (hb : s.resolve b = some v) :
    exec (.set (.reg d) b) s = .next ((s.setReg d v).advance 3) :=
  withSrc_some hb _

/-- `push` of a legal operand (R91). -/
theorem exec_push_value {a : Operand} {v : Value} (ha : s.resolve a = some v) :
    exec (.push a) s = .next ((s.push v).advance 2) :=
  withSrc_some ha _

/-- `pop` of an empty stack is a graceful halt (R15, R92). -/
theorem exec_pop_empty {d : Fin 8} (h : s.stk = []) : exec (.pop (.reg d)) s = .next s.setHalt := by
  show execPop (.reg d) s = _
  rw [execPop, withDst_reg, top?_none.2 h]

/-- `pop` of a stack with a top (R92). -/
theorem exec_pop_top {d : Fin 8} {v : Value} (h : s.top? = some v) :
    exec (.pop (.reg d)) s = .next ((s.dropTop.setReg d v).advance 2) := by
  show execPop (.reg d) s = _
  rw [execPop, withDst_reg, h]

end Sys2Proof.Machine
end

section
/-! The statements of 41_move_stack.md, settled. -/

namespace Sys2Proof.Machine

/-- Settles O12. -/
theorem setRule : Obligations.SetRule := by
  intro a b
  refine ⟨encodedAs_encode (.set a b), commonFaults (.set a b), ?_⟩
  rintro s d v rfl hb
  exact ⟨_, exec_set_value hb, .of_regs rfl, rfl, .of_update rfl⟩

/-- Settles O13. The `pop` after the `push` of a register finds the register's own value on top, so that writing it back
changes nothing, and leaves the stack below it, which is the old stack. -/
theorem pushRule : Obligations.PushRule := by
  intro a
  refine ⟨encodedAs_encode (.push a), commonFaults (.push a), fun s v ha => ?_, ?_⟩
  · exact ⟨_, exec_push_value ha, rfl, rfl, fun _ => rfl, .of_eq rfl rfl, .of_update rfl⟩
  · rintro s r rfl
    have stk : ((s.push (s.reg r)).advance 2).stk = s.stk ++ [s.reg r] := rfl
    have popped := exec_pop_top (d := r) (State.top?_of_stk stk)
    have pc : s.pc + 2 + 2 = s.pc + 4 := BitVec.add_assoc s.pc 2 2
    exact ⟨_, _, exec_push_value (s.resolve_reg r), popped, State.dropTop_stk_of_stk stk, pc,
      s.reg_setReg_self r, .of_eq rfl rfl, .of_update rfl⟩

/-- Settles O14. -/
theorem popRule : Obligations.PopRule := by
  intro a
  refine ⟨encodedAs_encode (.pop a), commonFaults (.pop a), ?_, ?_⟩
  · rintro s d rfl empty
    exact exec_pop_empty empty
  · rintro s d below v rfl stk
    exact ⟨_, exec_pop_top (State.top?_of_stk stk), .of_regs rfl, State.dropTop_stk_of_stk stk, rfl,
      .of_eq rfl rfl, .of_update rfl⟩

end Sys2Proof.Machine
end

section
/-! SUPPORT. The three-operand shape with legal operands, told by what it changes and what it leaves unchanged, and the
0 or 1 that a comparison writes (42_compare.md). -/

namespace Sys2Proof.Machine

variable {s : State}

/-- The three-operand shape writes the function of the two values and steps over its four words; nothing else changes. -/
theorem binary_writes (f : Value → Value → Value) (d : Fin 8) {b c : Operand} {vb vc : Value}
    (hb : s.resolve b = some vb) (hc : s.resolve c = some vc) :
    ∃ t, binary f (.reg d) b c s = .next t ∧ RegWritten s t d (f vb vc) ∧ t.pc = s.pc + 4 ∧ SameButRegsPc s t :=
  ⟨_, binary_values hb hc, .of_regs rfl, rfl, .of_update rfl⟩

theorem boolValue_beq (v w : Value) :
    (v = w ∧ boolValue (v == w) = 1) ∨ (v ≠ w ∧ boolValue (v == w) = 0) := by
  by_cases h : v = w
  · exact .inl ⟨h, by simp [boolValue, h]⟩
  · exact .inr ⟨h, by simp [boolValue, h]⟩

theorem boolValue_decide_lt (m n : Nat) :
    (m < n ∧ boolValue (decide (m < n)) = 1) ∨ (n ≤ m ∧ boolValue (decide (m < n)) = 0) := by
  rcases Nat.lt_or_ge m n with h | h
  · exact .inl ⟨h, by simp [boolValue, h]⟩
  · exact .inr ⟨h, by simp [boolValue, Nat.not_lt.2 h]⟩

end Sys2Proof.Machine
end

section
/-! The statement of 42_compare.md, settled. -/

namespace Sys2Proof.Machine

/-- Settles O15: both instructions are the three-operand shape, and what it writes is 1 or 0 as the comparison of the
two values holds or not. -/
theorem compareRules : Obligations.CompareRules := by
  intro a b c
  refine ⟨encodedAs_encode (.eq a b c), commonFaults (.eq a b c), encodedAs_encode (.gt a b c),
    commonFaults (.gt a b c), ?_⟩
  rintro s d vb vc rfl hb hc
  constructor
  · obtain ⟨t, answer, written, frame⟩ := binary_writes (fun v w => boolValue (v == w)) d hb hc
    refine ⟨t, answer, ?_, frame⟩
    rcases boolValue_beq vb vc with ⟨equal, one⟩ | ⟨different, zero⟩
    · exact .inl ⟨equal, one ▸ written⟩
    · exact .inr ⟨different, zero ▸ written⟩
  · obtain ⟨t, answer, written, frame⟩ := binary_writes (fun v w => boolValue (decide (w.toNat < v.toNat))) d hb hc
    refine ⟨t, answer, ?_, frame⟩
    rcases boolValue_decide_lt vc.toNat vb.toNat with ⟨greater, one⟩ | ⟨notGreater, zero⟩
    · exact .inl ⟨greater, one ▸ written⟩
    · exact .inr ⟨notGreater, zero ▸ written⟩

end Sys2Proof.Machine
end

section
/-! SUPPORT. The control transfers that do not go to a target (43_control.md): a jump that is not taken, a return address
that does not fit, a return with nothing to return to; and the frame of a jump. -/

namespace Sys2Proof.Machine

variable {s : State}

/-! ### Jumps -/

theorem SameButRegsPc.setPc (t : Word) : SameButRegsPc s (s.setPc t) := .of_update rfl

theorem SameButRegsPc.advance (n : Nat) : SameButRegsPc s (s.advance n) := .of_update rfl

theorem exec_jt_not_taken {a b : Operand} {v : Value} (ha : s.resolve a = some 0) (hb : s.resolve b = some v) :
    exec (.jt a b) s = .next (s.advance 3) :=
  (withSrc_some ha _).trans ((withSrc_some hb _).trans (if_neg (not_not.2 rfl)))

theorem exec_jf_not_taken {a b : Operand} {c v : Value} (ha : s.resolve a = some c) (hc : c ≠ 0)
    (hb : s.resolve b = some v) : exec (.jf a b) s = .next (s.advance 3) :=
  (withSrc_some ha _).trans ((withSrc_some hb _).trans (if_neg hc))

/-! ### Return addresses -/

/-- The return address as a stack cell, where it fits (R98). -/
theorem toNat_ofNat_returnAddress {p : Word} (fits : p.toNat + 2 ≤ 32767) :
    (BitVec.ofNat 15 (p.toNat + 2)).toNat = p.toNat + 2 :=
  (BitVec.toNat_ofNat _ _).trans (Nat.mod_eq_of_lt (by omega))

/-- The return address as the information word of the fault: the program counter's own sum (R98, R138). -/
theorem ofNat_returnAddress (p : Word) : BitVec.ofNat 16 (p.toNat + 2) = p + 2 := by
  rw [BitVec.ofNat_add, BitVec.ofNat_toNat, BitVec.setWidth_eq]
  rfl

/-- A return address that does not fit the stack cell is a fault (R98). -/
theorem exec_call_valueRange {a : Operand} {v : Value} (ha : s.resolve a = some v) (hp : 32767 < s.pc.toNat + 2) :
    exec (.call a) s = .next (s.record .valueRange (s.pc + 2)) :=
  ofNat_returnAddress s.pc ▸ (withSrc_some ha _).trans (if_pos hp)

/-- `ret` on an empty stack is a graceful halt (R15, R99). -/
theorem exec_ret_empty (h : s.stk = []) : exec .ret s = .next s.setHalt := by
  show execRet s = _
  rw [execRet, top?_none.2 h]

end Sys2Proof.Machine
end

section
/-! The statements of 43_control.md, settled. -/

namespace Sys2Proof.Machine

/-- Settles O19. -/
theorem jmpRule : Obligations.JmpRule := by
  intro a
  refine ⟨encodedAs_encode (.jmp a), commonFaults (.jmp a), fun s v ha => ?_⟩
  exact ⟨_, exec_jmp_target ha, toNat_zext16 v, fun _ => rfl, .setPc _⟩

/-- Settles O20: a condition of 0 is where `jf` jumps and `jt` does not; any other, where `jt` jumps and `jf` does not. -/
theorem conditionalJumpRules : Obligations.ConditionalJumpRules := by
  intro a b
  refine ⟨encodedAs_encode (.jt a b), commonFaults (.jt a b), encodedAs_encode (.jf a b), commonFaults (.jf a b),
    fun s va vb ha hb => ?_⟩
  by_cases zero : va = 0
  · subst zero
    exact ⟨⟨_, exec_jt_not_taken ha hb, .inr ⟨rfl, rfl⟩, fun _ => rfl, .advance 3⟩,
      ⟨_, exec_jf_taken ha hb, .inl ⟨rfl, toNat_zext16 vb⟩, fun _ => rfl, .setPc _⟩⟩
  · exact ⟨⟨_, exec_jt_taken ha zero hb, .inl ⟨zero, toNat_zext16 vb⟩, fun _ => rfl, .setPc _⟩,
      ⟨_, exec_jf_not_taken ha zero hb, .inr ⟨zero, rfl⟩, fun _ => rfl, .advance 3⟩⟩

/-- Settles O21. -/
theorem callRule : Obligations.CallRule := by
  intro a
  refine ⟨encodedAs_encode (.call a), commonFaults (.call a), fun s v ha => ⟨fun fits => ?_, fun tooHigh => ?_⟩⟩
  · exact ⟨_, _, exec_call_target ha fits, rfl, toNat_ofNat_returnAddress fits, toNat_zext16 v, fun _ => rfl,
      .of_eq rfl rfl, .of_update rfl⟩
  · exact exec_call_valueRange ha tooHigh

/-- Settles O22. What a `call` pushes (`callRule`) is what the `ret` after it pops: the return address, above the stack as
it was. -/
theorem retRule : Obligations.RetRule := by
  refine ⟨encodedAs_encode .ret, fun s empty => exec_ret_empty empty, fun s below v stk => ?_, fun s a v ha fits => ?_⟩
  · exact ⟨_, exec_ret_target stk, toNat_zext16 v, State.dropTop_stk_of_stk stk, fun _ => rfl, .of_eq rfl rfl,
      .of_update rfl⟩
  · obtain ⟨-, -, calls⟩ := callRule a
    obtain ⟨t, r, called, pushed, returnAddress, -, regs, memory, rest⟩ := (calls s v ha).1 fits
    exact ⟨t, _, called, exec_ret_target pushed, (toNat_zext16 r).trans returnAddress, State.dropTop_stk_of_stk pushed,
      regs, memory, rest⟩

end Sys2Proof.Machine
end

section
/-! SUPPORT. `mod` and `not` with legal operands, and the remainder as a 15-bit value (44_arith_logic.md). -/

namespace Sys2Proof.Machine

variable {s : State} {d : Fin 8} {b c : Operand} {vb vc : Value}

/-- A divisor of 0 is a fault, which tells the divisor's operand word (R103, R137). -/
theorem exec_mod_zero (hb : s.resolve b = some vb) (hc : s.resolve c = some 0) :
    exec (.mod (.reg d) b c) s = .next (s.record .divideByZero c.toWord) :=
  (withSrc_some hb _).trans ((withSrc_some hc _).trans (if_pos rfl))

/-- `mod` with a divisor that is not 0 (R103). -/
theorem exec_mod_values (hb : s.resolve b = some vb) (hc : s.resolve c = some vc) (nonzero : vc ≠ 0) :
    exec (.mod (.reg d) b c) s = .next ((s.setReg d (BitVec.ofNat 15 (vb.toNat % vc.toNat))).advance 4) :=
  (withSrc_some hb _).trans ((withSrc_some hc _).trans (if_neg nonzero))

/-- `not` of a legal operand (R106). -/
theorem exec_not_value (hb : s.resolve b = some vb) :
    exec (.not (.reg d) b) s = .next ((s.setReg d (~~~vb)).advance 3) :=
  withSrc_some hb _

/-- A remainder is no greater than the dividend, so it fits the register. -/
theorem toNat_ofNat_remainder (v w : Value) : (BitVec.ofNat 15 (v.toNat % w.toNat)).toNat = v.toNat % w.toNat :=
  (BitVec.toNat_ofNat _ _).trans (Nat.mod_eq_of_lt ((Nat.mod_le _ _).trans_lt v.isLt))

end Sys2Proof.Machine
end

section
/-! The statements of 44_arith_logic.md, settled. -/

namespace Sys2Proof.Machine

/-- Settles O16: both instructions are the three-operand shape, and a number made a 15-bit value is reduced modulo
32768. -/
theorem addMultRules : Obligations.AddMultRules := by
  intro a b c
  refine ⟨encodedAs_encode (.add a b c), commonFaults (.add a b c), encodedAs_encode (.mult a b c),
    commonFaults (.mult a b c), ?_⟩
  rintro s d vb vc rfl hb hc
  constructor
  · obtain ⟨t, answer, written, frame⟩ := binary_writes (fun v w => BitVec.ofNat 15 (v.toNat + w.toNat)) d hb hc
    exact ⟨t, _, answer, written, BitVec.toNat_ofNat _ _, frame⟩
  · obtain ⟨t, answer, written, frame⟩ := binary_writes (fun v w => BitVec.ofNat 15 (v.toNat * w.toNat)) d hb hc
    exact ⟨t, _, answer, written, BitVec.toNat_ofNat _ _, frame⟩

/-- Settles O17: the quotient beside the remainder is that of the natural numbers. -/
theorem modRule : Obligations.ModRule := by
  intro a b c
  refine ⟨encodedAs_encode (.mod a b c), commonFaults (.mod a b c), ?_⟩
  rintro s d vb vc rfl hb hc
  refine ⟨fun zero => exec_mod_zero hb (zero ▸ hc), fun nonzero => ?_⟩
  have remainder := toNat_ofNat_remainder vb vc
  have bound := Nat.mod_lt vb.toNat (BitVec.toNat_pos_of_ne_zero nonzero)
  have quotient := (Nat.div_add_mod' vb.toNat vc.toNat).symm
  exact ⟨_, _, vb.toNat / vc.toNat, exec_mod_values hb hc nonzero, .of_regs rfl, remainder.trans_lt bound,
    remainder.symm ▸ quotient, rfl, .of_update rfl⟩

/-- Settles O18: `and` and `or` are the three-operand shape with the bit operations of 15-bit values. -/
theorem bitwiseRules : Obligations.BitwiseRules := by
  intro a b c
  refine ⟨encodedAs_encode (.and a b c), commonFaults (.and a b c), encodedAs_encode (.or a b c),
    commonFaults (.or a b c), encodedAs_encode (.not a b), commonFaults (.not a b), ?_⟩
  rintro s d vb rfl hb
  refine ⟨fun vc hc => ?_, fun vc hc => ?_, ?_⟩
  · obtain ⟨t, answer, written, frame⟩ := binary_writes (fun v w => v &&& w) d hb hc
    exact ⟨t, _, answer, written, fun _ _ => BitVec.getLsbD_and, frame⟩
  · obtain ⟨t, answer, written, frame⟩ := binary_writes (fun v w => v ||| w) d hb hc
    exact ⟨t, _, answer, written, fun _ _ => BitVec.getLsbD_or, frame⟩
  · exact ⟨_, _, exec_not_value hb, .of_regs rfl, BitVec.toNat_not, rfl, .of_update rfl⟩

end Sys2Proof.Machine
end

section
/-! SUPPORT. The three ways `rmem` with legal operands can go (45_memory_ops.md R110). -/

namespace Sys2Proof.Machine

variable {s : State} {d : Fin 8} {b : Operand} {ea : Value}

/-- A read at or beyond the extent is a fault, which tells the address (R110, R134). -/
theorem exec_rmem_memoryBounds (hb : s.resolve b = some ea) (beyond : s.mlen ≤ ea.toNat) :
    exec (.rmem (.reg d) b) s = .next (s.record .memoryBounds (zext16 ea)) := by
  show execRmem (.reg d) b s = _
  rw [execRmem, withDst_reg, withSrc_some hb, State.memRead_eq_none.2 beyond]
  rfl

/-- Below the extent the cell itself decides between the fault and the register (R110). -/
theorem exec_rmem_below_extent (hb : s.resolve b = some ea) (below : ea.toNat < s.mlen) :
    exec (.rmem (.reg d) b) s =
      if 32767 < (s.word ea.toNat).toNat then raiseFault .valueRange (s.word ea.toNat) s
      else .next ((s.setReg d (BitVec.ofNat 15 (s.word ea.toNat).toNat)).advance 3) := by
  show execRmem (.reg d) b s = _
  rw [execRmem, withDst_reg, withSrc_some hb, State.memRead_eq_some.2 ⟨below, rfl⟩]

/-- A cell that does not fit a register is a fault, which tells the cell (R110, R138). -/
theorem exec_rmem_valueRange (hb : s.resolve b = some ea) (below : ea.toNat < s.mlen)
    (tooHigh : 32767 < (s.word ea.toNat).toNat) :
    exec (.rmem (.reg d) b) s = .next (s.record .valueRange (s.word ea.toNat)) :=
  (exec_rmem_below_extent hb below).trans (if_pos tooHigh)

/-- A cell that fits goes into the register (R110). -/
theorem exec_rmem_cell (hb : s.resolve b = some ea) (below : ea.toNat < s.mlen)
    (fits : (s.word ea.toNat).toNat ≤ 32767) :
    exec (.rmem (.reg d) b) s =
      .next ((s.setReg d (BitVec.ofNat 15 (s.word ea.toNat).toNat)).advance 3) :=
  (exec_rmem_below_extent hb below).trans (if_neg (Nat.not_lt.2 fits))

/-- A word that fits 15 bits keeps its value as a register's. -/
theorem toNat_ofNat_cell {w : Word} (fits : w.toNat ≤ 32767) : (BitVec.ofNat 15 w.toNat).toNat = w.toNat :=
  (BitVec.toNat_ofNat _ _).trans (Nat.mod_eq_of_lt (Nat.lt_succ_of_le fits))

end Sys2Proof.Machine
end

section
/-! The statements of 45_memory_ops.md, settled. -/

namespace Sys2Proof.Machine

/-- Settles O24. -/
theorem rmemRule : Obligations.RmemRule := by
  intro a b
  refine ⟨encodedAs_encode (.rmem a b), commonFaults (.rmem a b), ?_⟩
  rintro s d ea rfl hb
  refine ⟨exec_rmem_memoryBounds hb, exec_rmem_valueRange hb, fun below fits => ?_⟩
  exact ⟨_, _, exec_rmem_cell hb below fits, .of_regs rfl, toNat_ofNat_cell fits, rfl, .of_update rfl⟩

/-- Settles O25: the stored cell and the bytes outside it are those of a word write to the old memory. -/
theorem wmemRule : Obligations.WmemRule := by
  intro a b
  refine ⟨encodedAs_encode (.wmem a b), commonFaults (.wmem a b), fun s ea v ha hb => ?_⟩
  have stored : (s.memWrite ea.toNat (zext16 v)).word ea.toNat = zext16 v :=
    (s.word_memWrite ea.toNat ea.toNat (zext16 v)).trans (if_pos rfl)
  exact ⟨_, exec_wmem_values ha hb, (congrArg BitVec.toNat stored).trans (toNat_zext16 v),
    fun _ => Memory.read_writeWord_other, s.memWrite_mlen ea.toNat (zext16 v), rfl, rfl, fun _ => rfl, .of_update rfl⟩

end Sys2Proof.Machine
end

section
/-! SUPPORT. The lines of a code sequence (46_io.md R117): what one more code does to them. -/

namespace Sys2Proof.Machine

/-- A newline at the end completes the line before it. -/
theorem splitLines_concat_newline (cs : List Value) :
    splitLines (cs ++ [Config.newline]) = ((splitLines cs).1 ++ [(splitLines cs).2], []) := by
  induction cs with
  | nil => rfl
  | cons c cs ih =>
    rw [List.cons_append, splitLines, ih, splitLines]
    by_cases newline : c = Config.newline
    · simp [newline]
    · cases h : (splitLines cs).1 <;> simp [newline, h]

/-- Any other code at the end joins what follows the last newline. -/
theorem splitLines_concat_other {v : Value} (other : v ≠ Config.newline) (cs : List Value) :
    splitLines (cs ++ [v]) = ((splitLines cs).1, (splitLines cs).2 ++ [v]) := by
  induction cs with
  | nil => simp [splitLines, other]
  | cons c cs ih =>
    rw [List.cons_append, splitLines, ih, splitLines]
    by_cases newline : c = Config.newline
    · simp [newline]
    · cases h : (splitLines cs).1 <;> simp [newline, h]

/-- The emitted lines and the output accumulator are the split of the output sequence at its newlines. -/
def LinesFollowOutput (s : State) : Prop :=
  splitLines s.out = (s.outLines, s.outAcc)

theorem LinesFollowOutput.of_sameOutput {s t : State} (h : LinesFollowOutput s) (same : SameOutput s t) :
    LinesFollowOutput t := by
  obtain ⟨out, acc, lines⟩ := same
  rw [LinesFollowOutput, out, acc, lines]
  exact h

/-- `EmitChar` does to the lines and the accumulator what one more code does to the split (R115, R117). -/
theorem LinesFollowOutput.emitChar {s : State} (h : LinesFollowOutput s) (v : Value) :
    LinesFollowOutput (s.emitChar v) := by
  unfold LinesFollowOutput at h ⊢
  by_cases newline : v = Config.newline
  · subst newline
    simp [splitLines_concat_newline, h]
  · simp [splitLines_concat_other newline, h, newline]

end Sys2Proof.Machine
end

section
/-! SUPPORT. What an instruction and a whole step do to the I/O channel (46_io.md R117, R118): to its output side, to its
input accumulator and history, and to its COLLECTING and DISPATCHING. Each is read off `Effect` and `StepEffect` once. -/

namespace Sys2Proof.Machine

variable {s t : State}

/-- Output over an instruction (R115): untouched, or one code emitted. -/
theorem Effect.output_cases {i : Instr} (h : Effect s i t) :
    SameOutput s t ∨ ∃ v, SameOutput (s.emitChar v) t := by
  cases h with
  | emitted a v _ => exact .inr ⟨v, rfl, rfl, rfl⟩
  | _ => exact .inl ⟨rfl, rfl, rfl⟩

/-- No instruction reaches the input side of the channel; `in` takes from the pending characters (R119). -/
theorem Effect.sameChannel {i : Instr} (h : Effect s i t) : SameChannel s t := by
  cases h with
  | emitted a v _ => simp [SameChannel]
  | _ => exact ⟨rfl, rfl, rfl, rfl⟩

/-- Output over a step: untouched, one code emitted, or begun afresh by a load. -/
theorem StepEffect.output_cases (h : StepEffect s t) :
    SameOutput s t ∨ (∃ v, SameOutput (s.emitChar v) t) ∨ SameOutput State.reset t := by
  cases h with
  | executed i _ _ _ eff => exact eff.output_cases.imp_right .inl
  | loaded img ps moves _ _ _ => exact .inr (.inr (by simp [SameOutput, State.loaded]))
  | dispatched _ _ => exact .inl (by simp [SameOutput])
  | debugged op _ _ _ _ => exact .inl (by simp [SameOutput])
  | keyed c _ _ _ _ => exact .inl (by simp [SameOutput])
  | fetchFault _ _ _ _ => exact .inl ⟨rfl, rfl, rfl⟩
  | held _ _ _ => exact .inl ⟨rfl, rfl, rfl⟩
  | readStopped _ _ _ _ => exact .inl ⟨rfl, rfl, rfl⟩

/-- Input accumulator and history over a step: untouched, a code that is not newline accumulated, the accumulator archived
as a line, or both begun afresh by a load. -/
theorem StepEffect.input_cases (h : StepEffect s t) :
    (t.inAcc = s.inAcc ∧ t.history = s.history) ∨
    (∃ c, c ≠ Config.newline ∧ t.inAcc = s.inAcc ++ [c] ∧ t.history = s.history) ∨
    (t.inAcc = [] ∧ t.history = s.history ++ [s.inAcc]) ∨
    (t.inAcc = [] ∧ t.history = []) := by
  cases h with
  | executed i _ _ _ eff =>
    obtain ⟨acc, history, -, -⟩ := eff.sameChannel
    exact .inl ⟨acc, history⟩
  | keyed c _ _ _ _ =>
    by_cases newline : c = Config.newline
    · exact .inl (by simp [newline])
    · exact .inr (.inl ⟨c, newline, by simp [newline], by simp⟩)
  | dispatched _ _ => exact .inr (.inr (.inl ⟨s.dispatchLine_inAcc, s.dispatchLine_history⟩))
  | loaded img ps moves _ _ _ => exact .inr (.inr (.inr (by simp [State.loaded, State.reset])))
  | debugged op _ _ _ _ => exact .inl (by simp)
  | fetchFault _ _ _ _ => exact .inl ⟨rfl, rfl⟩
  | held _ _ _ => exact .inl ⟨rfl, rfl⟩
  | readStopped _ _ _ _ => exact .inl ⟨rfl, rfl⟩

/-- The channel's state over a step: a step of a core that does not wait leaves it alone; a step of one that waits ends in
COLLECTING or leaves the core waiting. -/
theorem StepEffect.chan_cases (h : StepEffect s t) :
    t.chan = .collecting ∨ t.status = .waitIn ∨ (s.status ≠ .waitIn ∧ t.chan = s.chan) := by
  cases h with
  | executed i hs _ _ eff =>
    obtain ⟨-, -, chan, -⟩ := eff.sameChannel
    exact .inr (.inr ⟨by simp [hs], chan⟩)
  | fetchFault c w hs _ => exact .inr (.inr ⟨by simp [hs], rfl⟩)
  | readStopped q _ hs _ => exact .inr (.inr ⟨fun waits => hs (canStep_iff.2 (.inr waits)), rfl⟩)
  | held hs _ _ => exact .inr (.inl hs)
  | keyed c _ hs _ _ =>
    exact .inr (.inl ((status_congr (by simp) (by simp) (by simp) (by simp) (by simp) (by simp)).trans hs))
  | dispatched _ _ => exact .inl s.dispatchLine_chan
  | debugged op _ _ hc _ => exact .inl (by simp [hc])
  | loaded img ps moves _ _ _ => exact .inl (by simp [State.loaded, State.reset])

end Sys2Proof.Machine
end

section
/-! SUPPORT. `out` and `in` with legal operands (46_io.md R115, R116). -/

namespace Sys2Proof.Machine

variable {s : State}

/-- `out` of a legal operand (R115). -/
theorem exec_out_value {a : Operand} {v : Value} (ha : s.resolve a = some v) :
    exec (.out a) s = .next ((s.emitChar v).advance 2) :=
  withSrc_some ha _

/-- `in` with a pending character (R116). -/
theorem exec_in_pending {d : Fin 8} {c : Value} {q : List Value} (h : s.inq = c :: q) :
    exec (.in_ (.reg d)) s = .next ((s.dropChar.setReg d c).advance 2) := by
  show execIn (.reg d) s = _
  rw [execIn, withDst_reg, h, List.head?_cons]

/-- `in` without one has no effect (R116). -/
theorem exec_in_empty {d : Fin 8} (h : s.inq = []) : exec (.in_ (.reg d)) s = .next s := by
  show execIn (.reg d) s = _
  rw [execIn, withDst_reg, h, List.head?_nil]

/-- An `in` that is fetched with no character pending holds the core in WAIT_IN (R20). -/
theorem status_waitIn_of_in {d : Fin 8} (can : CanStep s) (words : WordsAtPc s (encode (.in_ (.reg d))))
    (empty : s.inq = []) : s.status = .waitIn :=
  status_waitIn.2 ⟨can, waiting_iff.2 ⟨⟨d, fetch_of_encode_at_pc words⟩, empty⟩⟩

end Sys2Proof.Machine
end

section
/-! SUPPORT. A line typed to a waiting core (46_io.md R118): one step for each character, one for the newline and one for
the dispatch. -/

namespace Sys2Proof.Machine

variable {s : State}

theorem State.inq_of_waitIn (waits : s.status = .waitIn) : s.inq = [] :=
  (waiting_iff.1 (status_waitIn.1 waits).2).2

/-- COLLECTING: the channel of a waiting core reads the character that is typed next. -/
theorem step_key {c : Value} {moves : List HostMove} (waits : s.status = .waitIn) (collecting : s.chan = .collecting)
    (hh : s.host = .key c :: moves) : step s = .next (s.dropMove.typeKey c) := by
  rw [step, environmentStep, waits, collecting, hh]
  rfl

/-- DISPATCHING: the channel of a waiting core interprets the completed line. -/
theorem step_dispatch (waits : s.status = .waitIn) (dispatching : s.chan = .dispatching) :
    step s = .next s.dispatchLine := by
  rw [step, environmentStep, waits, dispatching]

/-- `s` with `line` in the accumulator after what it held, and the host's moves `moves` still to come. -/
def State.typed (s : State) (line : Line) (moves : List HostMove) : State :=
  { s with inAcc := s.inAcc ++ line, host := moves }

theorem State.status_typed (line : Line) (moves : List HostMove) : (s.typed line moves).status = s.status :=
  status_congr rfl rfl rfl rfl rfl rfl

/-- Typing a code that is not newline. -/
theorem State.dropMove_typeKey_other {c : Value} {moves : List HostMove} (other : c ≠ Config.newline)
    (hh : s.host = .key c :: moves) : s.dropMove.typeKey c = s.typed [c] moves := by
  simp [State.typeKey, State.dropMove, State.typed, other, hh]

/-- Typing characters fills the accumulator. -/
theorem run_typed {line : Line} {moves : List HostMove} (waits : s.status = .waitIn) (collecting : s.chan = .collecting)
    (noNewline : Config.newline ∉ line) (hh : s.host = line.map .key ++ moves) (k : Nat) :
    Host.Core.run core (line.length + k) s = Host.Core.run core k (s.typed line moves) := by
  induction line generalizing s with
  | nil =>
    have nothing : s.typed [] moves = s := by
      simp only [List.map_nil, List.nil_append] at hh
      simp [State.typed, ← hh]
    rw [nothing, List.length_nil, Nat.zero_add]
  | cons c line ih =>
    obtain ⟨other, noNewline⟩ := not_or.1 (List.mem_cons.not.1 noNewline)
    have first : step s = .next (s.typed [c] (line.map .key ++ moves)) :=
      (step_key waits collecting hh).trans (congrArg _ (State.dropMove_typeKey_other (Ne.symm other) hh))
    have rest := ih ((State.status_typed [c] (line.map .key ++ moves)).trans waits) collecting noNewline rfl
    rw [List.length_cons, Nat.add_right_comm, run_succ first, rest]
    simp [State.typed]

/-- `s` with the line completed and not yet interpreted. -/
def State.lineTyped (s : State) (line : Line) (moves : List HostMove) : State :=
  { s.typed line moves with chan := .dispatching }

/-- A typed line and its newline are interpreted as one line with what the accumulator held. -/
theorem run_lineTyped {line : Line} {moves : List HostMove} (waits : s.status = .waitIn)
    (collecting : s.chan = .collecting) (noNewline : Config.newline ∉ line)
    (hh : s.host = line.map .key ++ .key Config.newline :: moves) :
    Host.Core.run core (line.length + 2) s = .next (s.lineTyped line moves).dispatchLine := by
  have newline : step (s.typed line (.key Config.newline :: moves)) = .next (s.lineTyped line moves) :=
    step_key ((State.status_typed _ _).trans waits) collecting rfl
  have dispatch : step (s.lineTyped line moves) = .next (s.lineTyped line moves).dispatchLine :=
    step_dispatch ((status_congr rfl rfl rfl rfl rfl rfl).trans waits) rfl
  rw [run_typed waits collecting noNewline hh, run_succ newline, run_succ dispatch, run_zero]

end Sys2Proof.Machine
end

section
/-! SUPPORT. The three ways of interpreting a completed line (46_io.md R118), and what the debug memory write stores
(60_exceptions.md R149). -/

namespace Sys2Proof.Machine

variable {s u : State}

/-- A line that is not reserved is archived and delivered. -/
theorem State.dispatchLine_of_not_reserved (h : isReserved s.inAcc = false) :
    s.dispatchLine = s.archive.deliver s.inAcc := by
  simp [State.dispatchLine, h]

/-- A reserved line that names no operation is archived, and that is all. -/
theorem State.dispatchLine_of_no_operation (h : isReserved s.inAcc = true) (noOperation : commandOp s.inAcc = none) :
    s.dispatchLine = s.archive := by
  simp [State.dispatchLine, h, noOperation]

/-- A reserved line that names an operation is archived, and the operation is performed. -/
theorem State.dispatchLine_of_operation {op : DebugOp} (h : isReserved s.inAcc = true)
    (named : commandOp s.inAcc = some op) : s.dispatchLine = s.archive.debug op := by
  simp [State.dispatchLine, h, named]

/-- A reserved line delivers nothing. -/
theorem State.dispatchLine_inq_of_reserved (h : isReserved s.inAcc = true) : s.dispatchLine.inq = s.inq := by
  cases operation : commandOp s.inAcc with
  | none => rw [dispatchLine_of_no_operation h operation, archive_inq]
  | some op => rw [dispatchLine_of_operation h operation, debug_inq, archive_inq]

theorem status_halted (sound : s.fault = .none) (halted : s.halt = true) : s.status = .halted := by
  simp [State.status, sound, halted]

/-- A debug write to a state with the memory of `s` stores the words over that memory. -/
theorem WordsStored.poke (hm : u.mem = s.mem) (hl : u.mlen = s.mlen) (a : Value) (ws : List Word) :
    WordsStored s (u.poke a.toNat ws) a ws := by
  refine ⟨fun k h inRange => ?_, fun k outside => ?_, fun nonempty => ?_, ?_⟩
  · have named : a.toNat ≤ a.toNat + k ∧ a.toNat + k - a.toNat < ws.length ∧ a.toNat + k < 32768 := by omega
    rw [State.word_poke, dif_pos named]
    simp
  · have notNamed : ¬ (a.toNat ≤ k ∧ k - a.toNat < ws.length ∧ k < 32768) := by omega
    rw [State.word_poke, dif_neg notNamed, State.word_congr hm]
  · rw [State.poke_mlen u a.toNat ws nonempty (Nat.le_of_lt_succ a.isLt), hl]
  · rintro rfl
    exact hl

/-- A debug memory write does not stop the core: the extent does not shrink. -/
theorem CanStep.poke (can : CanStep s) (a : Nat) (ws : List Word) : CanStep (s.poke a ws) := by
  obtain ⟨sound, running, below⟩ := can
  exact ⟨by rw [State.poke_fault, sound], by rw [State.poke_halt, running],
    by rw [State.poke_pc]; exact Nat.lt_of_lt_of_le below (s.poke_mlen_le a ws)⟩

end Sys2Proof.Machine
end

section
/-! The statements of 46_io.md, settled. -/

namespace Sys2Proof.Machine

/-- Settles O53. Output grows by `EmitChar` alone, which keeps the lines the split of it; what joins the accumulator is not
newline; and only a step of a waiting core that goes on waiting leaves the channel DISPATCHING. -/
theorem stepKeepsChannelInvariant : Obligations.StepKeepsChannelInvariant := by
  intro s t inv h
  have eff := step_effect h
  have lines : LinesFollowOutput s := inv.lines
  refine ⟨?lines, ?acc, ?history, fun dispatching => ?waits⟩
  case lines =>
    rcases eff.output_cases with same | ⟨v, emitted⟩ | afresh
    · exact lines.of_sameOutput same
    · exact (lines.emitChar v).of_sameOutput emitted
    · exact LinesFollowOutput.of_sameOutput (s := State.reset) rfl afresh
  case acc =>
    rcases eff.input_cases with ⟨acc, _⟩ | ⟨c, other, acc, _⟩ | ⟨acc, _⟩ | ⟨acc, _⟩
    · rw [acc]; exact inv.acc_no_newline
    · simp [acc, inv.acc_no_newline, Ne.symm other]
    · simp [acc]
    · simp [acc]
  case history =>
    rcases eff.input_cases with ⟨_, history⟩ | ⟨_, _, _, history⟩ | ⟨_, history⟩ | ⟨_, history⟩
    · rw [history]; exact inv.history_no_newline
    · rw [history]; exact inv.history_no_newline
    · rw [history]
      exact List.forall_mem_append.2 ⟨inv.history_no_newline, List.forall_mem_singleton.2 inv.acc_no_newline⟩
    · simp [history]
  case waits =>
    rcases eff.chan_cases with collecting | waits | ⟨notWaiting, chan⟩
    · exact absurd (collecting.symm.trans dispatching) (by decide)
    · exact waits
    · exact absurd (inv.dispatching_waits (chan.symm.trans dispatching)) notWaiting

/-- Settles O27. -/
theorem outRule : Obligations.OutRule := by
  intro a
  refine ⟨encodedAs_encode (.out a), commonFaults (.out a), fun s v ha => ⟨_, exec_out_value ha, ?_⟩⟩
  have regs : SameRegs s ((s.emitChar v).advance 2) := State.reg_congr (s.emitChar_regs v)
  refine ⟨s.emitChar_out v, fun newline => ?_, fun other => ?_, by simp, s.emitChar_stk v, s.emitChar_inq v, regs,
    .of_eq (s.emitChar_mem v) (s.emitChar_mlen v), by simp [SameRecord], by simp [SameChannel]⟩
  · simp [newline]
  · simp [other]

/-- Settles O28. -/
theorem inTakesOneCharacterOrIsHeld : Obligations.InTakesOneCharacterOrIsHeld := by
  intro a
  refine ⟨encodedAs_encode (.in_ a), commonFaults (.in_ a), ?_, ?_⟩
  · rintro s d c q rfl pending
    exact ⟨_, exec_in_pending pending, .of_regs rfl, congrArg List.tail pending, rfl, rfl, .of_eq rfl rfl,
      ⟨rfl, rfl, rfl⟩, ⟨rfl, rfl, rfl⟩, ⟨rfl, rfl, rfl, rfl⟩⟩
  · rintro s d rfl empty can words
    exact ⟨exec_in_empty empty, status_waitIn_of_in can words empty⟩

/-- Settles O29: the queue of a waiting core is empty, so what is pending after the delivery is the line and its newline. -/
theorem typedLineIsArchivedAndDelivered : Obligations.TypedLineIsArchivedAndDelivered := by
  intro s line moves waits collecting noNewline hh notReserved
  have delivered := State.dispatchLine_of_not_reserved (s := s.lineTyped line moves) notReserved
  rw [run_lineTyped waits collecting noNewline hh, delivered]
  simp [State.lineTyped, State.typed, State.archive, State.deliver, State.inq_of_waitIn waits, collecting]

/-- Settles O30. What every reserved line does is read off `dispatchLine`; the five clauses are what the operation it names
does to the archived state, which has the registers, the memory and the status of the waiting core. -/
theorem reservedLineDrivesTheDebugPort : Obligations.ReservedLineDrivesTheDebugPort := by
  intro s line moves waits collecting noNewline hh reserved
  have can : CanStep s := (status_waitIn.1 waits).1
  have empty : s.inq = [] := State.inq_of_waitIn waits
  have stillWaits : (s.lineTyped line moves).archive.status = .waitIn :=
    (status_congr rfl rfl rfl rfl rfl rfl).trans waits
  have performs {op : DebugOp} := State.dispatchLine_of_operation (s := s.lineTyped line moves) (op := op) reserved
  refine ⟨_, run_lineTyped waits collecting noNewline hh, (State.dispatchLine_inq_of_reserved reserved).trans empty,
    State.dispatchLine_inAcc _, State.dispatchLine_history _, State.dispatchLine_host _, State.dispatchLine_chan _,
    State.dispatchLine_pc _, State.dispatchLine_stk _, (State.dispatchLine_fault _).trans can.1,
    State.dispatchLine_finfo _,
    ⟨State.dispatchLine_out _, State.dispatchLine_outAcc _, State.dispatchLine_outLines _⟩,
    fun noOperation => ?_, fun halt => ?_, fun r v writeReg => ?_, fun q read => ?_, fun a ws writeMem => ?_⟩
  · rw [State.dispatchLine_of_no_operation reserved noOperation]
    exact ⟨fun _ => rfl, .of_eq rfl rfl, stillWaits⟩
  · rw [performs halt]
    exact ⟨fun _ => rfl, .of_eq rfl rfl, status_halted can.1 rfl⟩
  · rw [performs writeReg]
    exact ⟨.of_regs rfl, .of_eq rfl rfl, (status_congr rfl rfl rfl rfl rfl rfl).trans stillWaits⟩
  · rw [performs read]
    exact ⟨fun _ => rfl, .of_eq rfl rfl, stillWaits⟩
  · rw [performs writeMem]
    exact ⟨State.reg_congr (State.poke_regs _ _ _), .poke rfl rfl a ws, CanStep.poke (status_waitIn.1 stillWaits).1 _ ws⟩

/-- Settles O46, by reading the lines; no line comes to a form of arguments that the spec leaves open. -/
theorem commandLinesNameTheirOperation : Obligations.CommandLinesNameTheirOperation :=
  ⟨rfl, rfl, rfl, rfl, rfl, rfl, rfl, rfl, rfl, rfl, rfl, rfl, rfl, rfl, rfl, rfl, by decide, rfl⟩

end Sys2Proof.Machine
end

section
/-! SUPPORT. `halt` and `noop` have no operand, so they cannot fault (47_system.md R120, R121). -/

namespace Sys2Proof.Machine

variable {s : State}

/-- `halt` (R120). -/
theorem exec_halt : exec .halt s = .next s.setHalt := rfl

/-- `noop` (R121). -/
theorem exec_noop : exec .noop s = .next (s.advance 1) := rfl

end Sys2Proof.Machine
end

section
/-! The statement of 47_system.md, settled. -/

namespace Sys2Proof.Machine

/-- Settles O31. -/
theorem haltNoopRules : Obligations.HaltNoopRules := by
  refine ⟨encodedAs_encode .halt, encodedAs_encode .noop, fun s => ⟨⟨_, exec_halt, ?halts⟩, ⟨_, exec_noop, ?passes⟩⟩⟩
  case halts =>
    exact ⟨s.setHalt_halt, s.setHalt_pc, s.setHalt_fault, s.setHalt_finfo, s.setHalt_stk, s.setHalt_inq,
      State.reg_congr s.setHalt_regs, .of_eq s.setHalt_mem s.setHalt_mlen, by simp [SameOutput], by simp [SameChannel],
      fun sound => status_halted (s.setHalt_fault.trans sound) s.setHalt_halt⟩
  case passes =>
    exact ⟨rfl, State.reg_congr (s.advance_regs 1), .advance 1⟩

end Sys2Proof.Machine
end

section
/-! SUPPORT. Steps in which the host moves (60_exceptions.md R146, R152; 70_reset_and_hazards.md R166): a read of a stopped
core, a debug operation on a waiting one, a load of either; and what the memory dump holds (60_exceptions.md R147). -/

namespace Sys2Proof.Machine

variable {s : State}

theorem status_faulted (faulted : s.fault ≠ .none) : s.status = .faulted := by
  simp [State.status, faulted]

/-- The step of a core that cannot step is a stopped core's, whatever stopped it. -/
theorem step_of_not_canStep (stopped : ¬ CanStep s) : ∃ f, step s = stoppedStep f s := by
  by_cases sound : s.fault = .none
  · by_cases halted : s.halt = true
    · exact ⟨_, step_of_halted sound halted⟩
    · have running : s.halt = false := Bool.eq_false_iff.2 halted
      exact ⟨_, step_of_ranOff sound running (Nat.le_of_not_lt fun below => stopped ⟨sound, running, below⟩)⟩
  · exact ⟨_, step_of_faulted sound⟩

/-- The host's read of a stopped core. -/
theorem step_read_of_not_canStep {q : DebugRead} {moves : List HostMove} (stopped : ¬ CanStep s)
    (hh : s.host = .debug (.read q) :: moves) : step s = .next s.dropMove := by
  obtain ⟨f, hf⟩ := step_of_not_canStep stopped
  rw [hf, stoppedStep, hh]

/-- The host's debug operation on a core that waits while the channel is COLLECTING. -/
theorem step_debug {op : DebugOp} {moves : List HostMove} (waits : s.status = .waitIn)
    (collecting : s.chan = .collecting) (hh : s.host = .debug op :: moves) :
    step s = .next (s.dropMove.debug op) := by
  rw [step, environmentStep, waits, collecting, hh]
  rfl

/-- Whenever the host may load, the load at the head of its moves is the step. -/
theorem step_load {img : List Word} {ps : List (Fin 8 × Value)} {moves : List HostMove} (may : HostMayLoad s)
    (hh : s.host = .load img ps :: moves) : step s = hostLoad img ps moves := by
  obtain ⟨notRunning, quiet⟩ := may
  by_cases waits : s.status = .waitIn
  · rw [step, environmentStep, waits, quiet waits, hh]
    simp only [waitMove, hh, List.tail_cons]
  · obtain ⟨f, hf⟩ := step_of_not_canStep fun can => (canStep_iff.1 can).elim notRunning waits
    rw [hf, stoppedStep, hh]

@[simp] theorem State.length_dumpWords (s : State) : s.dumpWords.length = s.mlen := by
  simp [State.dumpWords]

@[simp] theorem State.getElem_dumpWords (s : State) (k : Nat) (h : k < s.dumpWords.length) :
    s.dumpWords[k] = s.word k := by
  simp [State.dumpWords]

end Sys2Proof.Machine
end

section
/-! The statements of 60_exceptions.md, settled. -/

namespace Sys2Proof.Machine

/-- Settles O32. -/
theorem raisingAFaultWritesOnlyItsRecord : Obligations.RaisingAFaultWritesOnlyItsRecord := by
  refine ⟨fun c info s fatal => ⟨s.record c info, rfl, ?_⟩, rfl, rfl, rfl, rfl, rfl, rfl, rfl⟩
  exact ⟨s.record_fault c info, s.record_finfo c info, s.record_halt c info, s.record_pc c info, s.record_stk c info,
    s.record_inq c info, State.reg_congr (s.record_regs c info),
    .of_eq (s.record_mem c info) (s.record_mlen c info), by simp [SameOutput], by simp [SameChannel],
    status_faulted fatal⟩

/-- Settles O44. The frame is that of `debug`; the four clauses are the four operations, each on the state with the move
taken off, which has the registers and the memory of the waiting core. -/
theorem debugOperationsOnAWaitingCore : Obligations.DebugOperationsOnAWaitingCore := by
  intro s op moves waits collecting hh
  have sound : s.fault = .none := (status_waitIn.1 waits).1.1
  refine ⟨_, step_debug waits collecting hh, by simp [hh], by simp, by simp, by simp, by simp, by simp,
    by simp [SameOutput], by simp, by simp, by simp, ?_, ?_, ?_, ?_⟩
  · rintro q rfl
    exact ⟨fun _ => rfl, .of_eq rfl rfl, rfl⟩
  · rintro rfl
    exact ⟨fun _ => rfl, .of_eq rfl rfl, rfl, status_halted sound rfl⟩
  · rintro r v rfl
    exact ⟨.of_regs rfl, .of_eq rfl rfl, rfl⟩
  · rintro a ws rfl
    exact ⟨State.reg_congr (State.poke_regs _ _ _), State.poke_halt _ _ _, .poke rfl rfl a ws⟩

/-- Settles O45. -/
theorem debugReadsReportTheState : Obligations.DebugReadsReportTheState := by
  intro s
  refine ⟨fun a below => if_neg (Nat.not_le.2 below), fun a beyond => if_pos beyond, rfl, ⟨s.regs, rfl, fun _ => rfl⟩,
    rfl, rfl, rfl, rfl, rfl, ⟨s.dumpWords, rfl, s.length_dumpWords, s.getElem_dumpWords⟩, fun q moves stopped hh => ?_⟩
  rw [step_read_of_not_canStep stopped hh, State.dropMove, hh, List.tail_cons]

end Sys2Proof.Machine
end

section
/-! SUPPORT. What the load of an image leaves (70_reset_and_hazards.md R160 to R162), and the load of a memory dump (R172). -/

namespace Sys2Proof.Machine

theorem hostLoad_fits {img : List Word} (ps : List (Fin 8 × Value)) (moves : List HostMove)
    (fits : img.length ≤ 32768) : hostLoad img ps moves = .next ((State.loaded img moves).preset ps) :=
  if_neg (Nat.not_lt.2 fits)

theorem hostLoad_tooLong {img : List Word} (ps : List (Fin 8 × Value)) (moves : List HostMove)
    (tooLong : 32768 < img.length) : hostLoad img ps moves = .refused .imageTooLong :=
  if_pos tooLong

theorem State.reg_loaded (img : List Word) (moves : List HostMove) (r : Fin 8) :
    (State.loaded img moves).reg r = 0 := by
  simp [State.reg, State.loaded, State.reset]

/-- The image from address 0, and 0 from its end on. -/
theorem State.word_loaded (img : List Word) (moves : List HostMove) (k : Nat) :
    (State.loaded img moves).word k = if h : k < img.length then img[k] else 0 := by
  show (Memory.writeWords [] 0 img).readWord k = _
  rw [Memory.readWord_writeWords]
  simp [Memory.readWord, Memory.read]

/-- Memories whose words read alike have the same bytes: a word is its two bytes (20_memory.md R35). -/
theorem Memory.read_eq_of_readWord_eq {m n : Memory} (words : ∀ k, m.readWord k = n.readWord k) (a : Nat) :
    m.read a = n.read a := by
  have same := congrArg BitVec.toNat (words (a / 2))
  simp only [Memory.readWord, toNat_append_bytes] at same
  have lowM := (m.read (2 * (a / 2))).isLt
  have lowN := (n.read (2 * (a / 2))).isLt
  rcases Nat.mod_two_eq_zero_or_one a with even | odd
  · have e : a = 2 * (a / 2) := by omega
    rw [e]
    exact BitVec.eq_of_toNat_eq (by omega)
  · have e : a = 2 * (a / 2) + 1 := by omega
    rw [e]
    exact BitVec.eq_of_toNat_eq (by omega)

/-- A loaded dump has the words of the state it was taken of: below the extent the dump holds them, and from the extent on
both hold 0. -/
theorem State.word_loaded_dumpWords {s : State} (inv : CoreInv s) (moves : List HostMove) (k : Nat) :
    (State.loaded s.dumpWords moves).word k = s.word k := by
  rw [State.word_loaded]
  split
  · exact s.getElem_dumpWords k _
  · rename_i beyond
    rw [State.length_dumpWords, Nat.not_lt] at beyond
    exact (Memory.readWord_above inv.cells_below_extent beyond).symm

end Sys2Proof.Machine
end

section
/-! The statements of 70_reset_and_hazards.md, settled. -/

namespace Sys2Proof.Machine

/-- Settles O48. -/
theorem loadResetsAllState : Obligations.LoadResetsAllState := by
  intro s img moves may hh fits
  refine ⟨State.loaded img moves, (step_load may hh).trans (hostLoad_fits [] moves fits), State.reg_loaded img moves,
    rfl, rfl, rfl, rfl, rfl, fun k below => ?_, fun k beyond => ?_, rfl, rfl, rfl, rfl, rfl, rfl⟩
  · rw [State.word_loaded, dif_pos below]
  · rw [State.word_loaded, dif_neg (Nat.not_lt.2 beyond)]

/-- Settles O49. The presets are written over the registers of the loaded state alone; the empty image leaves the extent
at the program counter. -/
theorem loadPresetsAndRefusals : Obligations.LoadPresetsAndRefusals := by
  intro s img moves may
  refine ⟨fun ps hh fits => ?presets, fun ps hh tooLong => ?refused, fun ps hh => ?empty⟩
  case presets =>
    refine ⟨_, (step_load may hh).trans (hostLoad_fits ps moves fits), fun r unnamed => ?_, ?_,
      State.preset_eq _ ps, State.preset_pc _ ps, State.preset_mlen _ ps⟩
    · rw [State.reg_preset_other _ unnamed, State.reg_loaded]
    · rintro before r v after rfl last
      exact State.reg_preset_last _ last
  case refused => exact (step_load may hh).trans (hostLoad_tooLong ps moves tooLong)
  case empty =>
    refine ⟨_, (step_load may hh).trans (hostLoad_fits ps moves (Nat.zero_le _)), status_ranOff ?_ ?_ ?_⟩
    · exact State.preset_fault _ ps
    · exact State.preset_halt _ ps
    · rw [State.preset_mlen]
      exact Nat.zero_le _

/-- Settles O50: both memories are canonical and read alike, so they are equal as data. -/
theorem dumpLoadedAgainRestoresMemoryOnly : Obligations.DumpLoadedAgainRestoresMemoryOnly := by
  intro s moves inv
  have words := State.word_loaded_dumpWords inv moves
  have fits : s.dumpWords.length ≤ Config.memCap := s.length_dumpWords.trans_le inv.extent_le
  have wf := (State.loaded_keeps moves fits).1
  exact ⟨words, s.length_dumpWords, Memory.ext_of_wf wf inv.memory_wf (Memory.read_eq_of_readWord_eq words),
    State.reg_loaded _ moves, rfl, rfl, rfl, rfl, rfl⟩

/-- Settles O51. Reset is the load of the empty image; it holds no line and no newline, and its channel is COLLECTING. -/
theorem resetMeetsTheInvariants : Obligations.ResetMeetsTheInvariants := by
  obtain ⟨wf, cells, extent⟩ := State.loaded_keeps (img := []) [] (Nat.zero_le _)
  have core : CoreInv State.reset := ⟨wf, cells, extent, Nat.zero_le _⟩
  have record : RecordInv State.reset := ⟨rfl, fun _ => rfl⟩
  have channel : ChannelInv State.reset :=
    ⟨rfl, List.not_mem_nil, by simp [State.reset], fun dispatching => by cases dispatching⟩
  exact ⟨core, record, channel⟩

end Sys2Proof.Machine
end
